-- ==== Sys2Proof/Word.lean ====
section
/-! DEFINITION. Word.lean: the sizes the spec fixes (R7, R8, R9): bytes, 32-bit words, four-byte
columns, sixteen-byte blocks, the eleven round keys, and a group of four 32-bit registers. Types only;
what is computed with them stands in Sys2Proof/Machine/. -/

namespace Sys2Proof

/-- R11: a byte is 8 bits, unsigned. -/
abbrev Byte := BitVec 8

/-- R8, R9: a word is 32 bits; so is every engine register. -/
abbrev Word := BitVec 32

/-- R8, R173: a word of four bytes, `a0` first: one word of the key schedule, and one column of the
AES state (its rows 0 to 3). -/
structure Col where
  a0 : Byte
  a1 : Byte
  a2 : Byte
  a3 : Byte
  deriving DecidableEq, Repr

/-- R7, R173: a 16-byte block as the four columns of the AES state, filled column by column: byte
`r + 4c` of the block is row `r` of column `c`. A round key (R135) has the same form. -/
structure Block where
  c0 : Col
  c1 : Col
  c2 : Col
  c3 : Col
  deriving DecidableEq, Repr

/-- R7, R45: the key schedule, `RK[0]` to `RK[10]`. -/
structure Schedule where
  rk0 : Block
  rk1 : Block
  rk2 : Block
  rk3 : Block
  rk4 : Block
  rk5 : Block
  rk6 : Block
  rk7 : Block
  rk8 : Block
  rk9 : Block
  rk10 : Block
  deriving DecidableEq, Repr

/-- R35, R36, R39, R40: four consecutive 32-bit registers that together hold 16 bytes (`KEY0..3`,
`IV0..3`, `BLK_IN0..3`, `BLK_OUT0..3`). -/
structure Quad where
  r0 : Word
  r1 : Word
  r2 : Word
  r3 : Word
  deriving DecidableEq, Repr

end Sys2Proof
end

