-- ==== Sys2Proof/Config.lean ====
section
/-! DEFINITION. Config.lean: the implementation parameters of R10 (`BASE`, `BUF_BYTES`), which the model
takes as an argument, and the free values, which the spec lets a model draw. A free value is an `opaque`
constant without a body: nothing can be proved about what it is, so a statement about it holds
whatever it is. -/

namespace Sys2Proof

/-- The two byte windows (R43, R44). -/
inductive Window where
  /-- `InBuf`, the buffer codec's input (R43). -/
  | inBuf
  /-- `OutBuf`, the buffer codec's output (R44). -/
  | outBuf
  deriving DecidableEq, Repr

/-- R10: the implementation parameters, an argument of the model. The constraints R10 puts on them
are `Params.wf` (WellFormed.lean). -/
structure Params where
  /-- `BASE`: the host address of offset 0 (R61). -/
  base : Nat
  /-- `BUF_BYTES`: the size of each window in bytes. -/
  bufBytes : Nat
  deriving DecidableEq, Repr

/-- The parameters `State.reset` stands for: `BUF_BYTES` at R10's default; `BASE`, which R10 leaves open,
at 0. DESIGN CHOICE (log entry 2): unsafe for a statement about `State.reset` alone that reads `BASE`; no
statement of this model does, each holds for every `Params`. -/
def Config.params : Params := { base := 0, bufBytes := 4096 }

/-- `draw32` of R18 and R65: the 32-bit value the `n`-th draw of a run gives. FREE VALUE (log entry 4). -/
opaque Config.drawWord : Nat → Word

/-- R43, R44, U5: what byte `i` of a window holds after the `n`-th reset until something writes it.
FREE VALUE (log entry 5). -/
opaque Config.unwrittenByte : Nat → Window → Nat → Byte

/-- R313, R316, U3: how many host steps pass between the acceptance of a command (the `n`-th draw of a
run) and the engine step that performs it: some finite number. FREE VALUE (log entry 6). -/
opaque Config.engineDelay : Nat → Nat

/-- What a host variable (R112) holds that the host program has not assigned. The spec is silent.
FREE VALUE (log entry 8). -/
opaque Config.hostVariable : Nat → Word

end Sys2Proof
end

