-- ==== Sys2Proof/Syntax.lean ====
section
/-! DEFINITION. Syntax.lean: the commands (one constructor per row of spec/opcode_table.json), the value of
decoding (R103), the names of the register map (R62), and the host's side: its accesses (R64) and the
assembler of R112 and R113 in abstract form. -/

namespace Sys2Proof

/-- R4, R104: the nine commands. A command carries no operand (R108). -/
inductive Instr where
  /-- `NOP` (R260). -/
  | nop
  /-- `KEXP` (R140). -/
  | kexp
  /-- `KCLR` (R141). -/
  | kclr
  /-- `EBLK` (R190). -/
  | eblk
  /-- `DBLK` (R191). -/
  | dblk
  /-- `EBUF.ECB` (R230). -/
  | ebufEcb
  /-- `EBUF.CBC` (R231). -/
  | ebufCbc
  /-- `DBUF.ECB` (R232). -/
  | dbufEcb
  /-- `DBUF.CBC` (R233). -/
  | dbufCbc
  deriving DecidableEq, Repr

/-- R103: the twelve values a command word decodes to: nine commands and three that are none. -/
inductive Decoded where
  | command (i : Instr)
  /-- `EBUF` with a mode outside ECB and CBC (R106). -/
  | ebufBadMode
  /-- `DBUF` with a mode outside ECB and CBC (R106). -/
  | dbufBadMode
  /-- Every other word (R105). -/
  | illegal
  deriving DecidableEq, Repr

/-- R62: the registers of the map, by name. -/
inductive RegName where
  | id
  | cmd
  | status
  | keyLen
  | key (j : Fin 4)
  | ivLen
  | iv (j : Fin 4)
  | blkLen
  | blkIn (j : Fin 4)
  | blkOut (j : Fin 4)
  | inLen
  | outLen
  deriving DecidableEq, Repr

/-- R62: what an offset of the region that is a multiple of 4 names. -/
inductive Location where
  | reg (r : RegName)
  /-- Word `k` of the `IN_BUF` window (R63). -/
  | inWord (k : Nat)
  /-- Word `k` of the `OUT_BUF` window (R63). -/
  | outWord (k : Nat)
  /-- A reserved offset: reads as zero, writes ignored. -/
  | reserved
  deriving DecidableEq, Repr

/-- R64: the kinds of access a host could attempt. Only `bits32` has a meaning. -/
inductive AccessWidth where
  | bits8
  | bits16
  | bits32
  | bits64
  | burst
  deriving DecidableEq, Repr

/-- R112: what a `write` stores: a 32-bit number or a host variable (named by a number here). -/
inductive HostVal where
  | imm (v : Word)
  | var (t : Nat)
  deriving DecidableEq, Repr

/-- One step of the host (R17, R112), or the platform's reset event (R300) at its place among them.
Addresses are host addresses: an offset `off` of the region is `BASE + off` (R61). -/
inductive HostOp where
  /-- One write access. -/
  | write (width : AccessWidth) (addr : Nat) (v : HostVal)
  /-- One read access into host variable `t`. -/
  | read (width : AccessWidth) (addr : Nat) (t : Nat)
  /-- R113, the loop of `getbuf`: for `k` in `0 .. (n + 3) div 4 - 1`, `n` the value of host variable `n`
  when the loop begins, one read access at `addr + 4k` into host variable `t + k`, one access per step. -/
  | readWords (addr : Nat) (n : Nat) (t : Nat)
  /-- R112 `bnz t, mask, label`, the label resolved to a position in the host program. -/
  | bnz (t : Nat) (mask : Word) (target : Nat)
  /-- The platform resets the engine (R300), at this position of the program (log entry 11). -/
  | reset
  deriving DecidableEq, Repr

/-- R112, R113: a line of a host program, in abstract form. Labels and host variables are numbers. -/
inductive AsmLine where
  | blank
  | label (l : Nat)
  | write (r : RegName) (v : HostVal)
  | writeInBuf (k : Nat) (v : HostVal)
  | read (r : RegName) (t : Nat)
  | readOutBuf (k : Nat) (t : Nat)
  | bnz (t : Nat) (mask : Word) (l : Nat)
  | command (i : Instr)
  | cmdRaw (w : Word)
  /-- `wait`, polling through host variable `t`. -/
  | wait (t : Nat)
  | setkey (h : Block)
  | setiv (h : Block)
  | setblk (h : Block)
  | setbuf (h : List Byte)
  | getblk (t0 t1 t2 t3 : Nat)
  /-- `getbuf -> n, t0..`: word `k` of the output goes to host variable `t + k`. -/
  | getbuf (n : Nat) (t : Nat)
  /-- `docmd`, waiting through host variable `t` and leaving the status in `s`. -/
  | docmd (i : Instr) (t s : Nat)
  deriving DecidableEq, Repr

end Sys2Proof
end

