-- ==== Sys2Proof/WellFormed.lean ====
section
/-! DEFINITION. WellFormed.lean: the checks on syntax and parameters. A command has no operand, so every
`Instr` is well formed (R108); what can be ill formed is a choice of the parameters (R10) and a host
access (R64). -/

namespace Sys2Proof

/-- R108: commands carry no immediates and no register numbers, so nothing in one can be ill formed. -/
def Instr.wf (_ : Instr) : Bool := true

/-- R10: `BASE` is aligned to 0x40000. -/
def Params.baseAligned (p : Params) : Bool := p.base % 0x40000 == 0

/-- R10: `BUF_BYTES` is a multiple of 16. -/
def Params.bufWholeBlocks (p : Params) : Bool := p.bufBytes % 16 == 0

/-- R10: 16 ≤ `BUF_BYTES` ≤ 65536. -/
def Params.bufInRange (p : Params) : Bool := 16 ≤ p.bufBytes && p.bufBytes ≤ 65536

/-- R10: the constraints on the implementation parameters. -/
def Params.wf (p : Params) : Bool := p.baseAligned && p.bufWholeBlocks && p.bufInRange

/-- R64, R61: an access to the engine that has a meaning: inside the region of 0x30000 bytes at `BASE`,
32 bits wide, at an offset that is a multiple of 4. -/
def accessWf (p : Params) (width : AccessWidth) (addr : Nat) : Bool :=
  p.base ≤ addr && addr < p.base + 0x30000 && width == .bits32 && (addr - p.base) % 4 == 0

/-- R64: every access the operation can make is well formed, whatever the host's variables hold; a branch or
a reset makes none. How many words `readWords` reads is known only when it runs, so no check on syntax
passes it: `State.accessOk` (Safety.lean) says of a state whether the access it makes there has a meaning. -/
def HostOp.wf (p : Params) : HostOp → Bool
  | .write width addr _ => accessWf p width addr
  | .read width addr _ => accessWf p width addr
  | .readWords _ _ _ => false
  | .bnz _ _ _ => true
  | .reset => true

end Sys2Proof
end

