-- ==== Sys2Proof/Decode.lean ====
section
/-! DEFINITION. Decode.lean: the fields of the command word (R100), the total decoder (R103), the encoder
(R104), and the host's view of the decoder, `decodeTableWord`. -/

namespace Sys2Proof

/-- R100: `OP`, bits [3:0]. -/
def opField (w : Word) : Nat := (w.extractLsb' 0 4).toNat

/-- R100: `MODE`, bits [7:4]. -/
def modeField (w : Word) : Nat := (w.extractLsb' 4 4).toNat

/-- R100: `RSV`, bits [31:8]. -/
def rsvField (w : Word) : Nat := (w.extractLsb' 8 24).toNat

/-- R103, operations 0 to 4: the command, which takes no mode (R105). -/
def decodePlain (i : Instr) (mode : Nat) : Decoded :=
  if mode = 0 then .command i else .illegal

/-- R102, R103, operations 5 and 6: the mode selects ECB, CBC or an unsupported mode. -/
def decodeMode (ecb cbc : Instr) (bad : Decoded) (mode : Nat) : Decoded :=
  if mode = 0 then .command ecb else if mode = 1 then .command cbc else bad

/-- R103: decode, total on 32-bit words. -/
def decode (w : Word) : Decoded :=
  if rsvField w ≠ 0 then .illegal
  else
    match opField w with
    | 0 => decodePlain .nop (modeField w)
    | 1 => decodePlain .kexp (modeField w)
    | 2 => decodePlain .kclr (modeField w)
    | 3 => decodePlain .eblk (modeField w)
    | 4 => decodePlain .dblk (modeField w)
    | 5 => decodeMode .ebufEcb .ebufCbc .ebufBadMode (modeField w)
    | 6 => decodeMode .dbufEcb .dbufCbc .dbufBadMode (modeField w)
    | _ => .illegal

/-- R101: the operation number of a command. -/
def Instr.op : Instr → Nat
  | .nop => 0x0
  | .kexp => 0x1
  | .kclr => 0x2
  | .eblk => 0x3
  | .dblk => 0x4
  | .ebufEcb => 0x5
  | .ebufCbc => 0x5
  | .dbufEcb => 0x6
  | .dbufCbc => 0x6

/-- R100, R102: the mode number of a command: 1 for CBC; 0 for ECB and for every command without a
mode. -/
def Instr.mode : Instr → Nat
  | .nop => 0x0
  | .kexp => 0x0
  | .kclr => 0x0
  | .eblk => 0x0
  | .dblk => 0x0
  | .ebufEcb => 0x0
  | .ebufCbc => 0x1
  | .dbufEcb => 0x0
  | .dbufCbc => 0x1

/-- R100: the command word with the given operation and mode and with `RSV = 0`. -/
def commandWord (op mode : Nat) : Word := BitVec.ofNat 32 (mode * 16 + op)

/-- R104: the one word of a command. -/
def encode (i : Instr) : Word := commandWord i.op i.mode

/-- The word the host's opcode-table question stands for: the low `nbits` bits of `w`, the bits above
them zero, as a 32-bit command word (R100). -/
def tableWord (nbits w : Nat) : Word := BitVec.ofNat 32 (w % 2 ^ nbits)

/-- The command the decoder reads from a table word; none where it reads no command (R105, R106). -/
def decodeTableWord (nbits w : Nat) : Option Instr :=
  match decode (tableWord nbits w) with
  | .command i => some i
  | .ebufBadMode => none
  | .dbufBadMode => none
  | .illegal => none

end Sys2Proof
end

