-- ==== Sys2Proof/Machine/Memory.lean ====
section
/-! DEFINITION. Machine/Memory.lean: sparse storage as a list of (address, value) pairs in one canonical form,
and the two window memories (R43, R44) in it. An address that is not listed holds NO VALUE of the
list's own (log entry 5): for a window byte, what a read then gives is a free value
(`Config.unwrittenByte`), drawn once at reset and kept (U5). So the list says which bytes have been
written since reset, and what to. -/

namespace Sys2Proof.Machine

/-- Sparse storage: (address, value) pairs, addresses strictly rising (`Sparse.wf`). -/
abbrev Sparse (α : Type) := List (Nat × α)

/-- One window's written bytes, keyed by byte index. -/
abbrev Memory := List Host.Cell

/-- The canonical form: addresses strictly rising, so none is listed twice. An unlisted address holds no
value, so no entry can equal what an unlisted address holds. -/
abbrev Sparse.wf {α : Type} (m : Sparse α) : Prop := (m.map Prod.fst).Pairwise (· < ·)

/-- The canonical form of a window memory. -/
abbrev Memory.wf (m : Memory) : Prop := Sparse.wf m

/-- What address `a` holds, if anything was written to it. -/
def Sparse.read {α : Type} : Sparse α → Nat → Option α
  | [], _ => none
  | (k, v) :: m, a => if k = a then some v else Sparse.read m a

/-- Write `v` to address `a`, keeping the canonical form. -/
def Sparse.write {α : Type} : Sparse α → Nat → α → Sparse α
  | [], a, v => [(a, v)]
  | (k, u) :: m, a, v =>
    if a < k then (a, v) :: (k, u) :: m
    else if a = k then (a, v) :: m
    else (k, u) :: Sparse.write m a v

/-- Write a byte string at address `a`, its first byte lowest. -/
def Sparse.writeAll {α : Type} : Sparse α → Nat → List α → Sparse α
  | m, _, [] => m
  | m, a, v :: vs => Sparse.writeAll (Sparse.write m a v) (a + 1) vs

/-- Every listed address is below `n`. -/
abbrev Sparse.below {α : Type} (m : Sparse α) (n : Nat) : Prop := ∀ c ∈ m, c.1 < n

end Sys2Proof.Machine
end

