-- ==== Sys2Proof/Machine/State.lean ====
section
/-! DEFINITION. Machine/State.lean: the state of the machine as plain data. `Engine` is the tuple of R30, field
by field, and nothing else; `State` puts beside it the parameters (R10), the host agent (R17, R112) and
the model's own bookkeeping of the interleaving and of the free values. -/

namespace Sys2Proof

/-- R45: the schedule with every byte 0x00. -/
def Schedule.zero : Schedule :=
  let z : Col := ⟨0, 0, 0, 0⟩
  let b : Block := ⟨z, z, z, z⟩
  ⟨b, b, b, b, b, b, b, b, b, b, b⟩

/-- Four registers holding 0. -/
def Quad.zero : Quad := ⟨0, 0, 0, 0⟩

end Sys2Proof

namespace Sys2Proof.Machine

/-- R270: the eight status codes. R271 lets a model take `ERRCODE` to range over these only; their
numbers are `Code.number` (Flags.lean). -/
inductive Code where
  | ok
  | invalidKeyLength
  | invalidIVLength
  | invalidBlockLength
  | unsupportedMode
  | paddingError
  | illegalCommand
  | lengthOverflow
  deriving DecidableEq, Repr

/-- R30: the engine's complete state. -/
structure Engine where
  /-- R32: the last accepted command word; while `busy`, the latched command. -/
  cmd : Word
  /-- R33: `STATUS.BUSY`. -/
  busy : Bool
  /-- R33: `STATUS.KEY_VALID`. -/
  keyValid : Bool
  /-- R33: `STATUS.ERRCODE`. -/
  errCode : Code
  /-- R34. -/
  keyLen : Word
  /-- R35: `KEY0..KEY3`. -/
  key : Quad
  /-- R36. -/
  ivLen : Word
  /-- R36: `IV0..IV3`. -/
  iv : Quad
  /-- R38. -/
  blkLen : Word
  /-- R39: `BLK_IN0..BLK_IN3`. -/
  blkIn : Quad
  /-- R40: `BLK_OUT0..BLK_OUT3`. -/
  blkOut : Quad
  /-- R41. -/
  inLen : Word
  /-- R42. -/
  outLen : Word
  /-- R43: the bytes of `InBuf` written since reset. -/
  inBuf : Memory
  /-- R44: the bytes of `OutBuf` written since reset. -/
  outBuf : Memory
  /-- R45: the key schedule, `RK[0..10]`. -/
  rk : Schedule
  deriving DecidableEq, Repr

/-- R113: a `getbuf` loop in progress: the word it reads next, and how many it reads in all. -/
structure Sweep where
  next : Nat
  total : Nat
  deriving DecidableEq, Repr

/-- R17, R112: the host agent: its program, where it is in it, its variables, and the loop it is in, if any
(R113). Not part of the engine's state (R30); it is what the engine's inputs come from (log entry 7). -/
structure HostAgent where
  prog : List HostOp
  pc : Nat
  vars : Sparse Word
  sweep : Option Sweep
  deriving DecidableEq, Repr

/-- The whole model: the engine, the agent that drives it, and the model's own fields. -/
structure State where
  /-- R10: the implementation parameters; no step changes them. -/
  params : Params
  /-- R30: the engine. -/
  engine : Engine
  /-- R17: the host. -/
  host : HostAgent
  /-- The model's own (log entry 6): how many host steps are still to pass before the engine step of the
  command in progress (R313). -/
  delay : Nat
  /-- The model's own (log entries 4 and 6): how many free values have been drawn. -/
  draws : Nat
  /-- The model's own (log entry 5): how many platform resets there have been; each draws the unwritten
  window bytes anew (U5). -/
  resets : Nat
  deriving DecidableEq, Repr

/-- No step faults: R275 says the engine has no fatal state, and every error is a completion status.
The type has no constructor, so that nothing can raise one. -/
inductive Fault where
  deriving DecidableEq, Repr

/-- Why the machine has no step. -/
inductive Refusal where
  /-- Raised by no arm of `exec` any more: an instruction without a meaning. Safe. -/
  | notModelled (mnemonic : String)
  /-- Raised by a host access outside `[BASE, BASE + 0x30000)`, which is none to the engine (R64, U12).
  Safe: the run stops. -/
  | accessOutsideRegion (addr : Nat)
  /-- Raised by a host access that is not 32 bits wide, to which R64 gives no meaning (U2). Safe. -/
  | accessWidth (addr : Nat)
  /-- Raised by a 32-bit host access at an offset that is no multiple of 4, to which R64 gives no meaning
  (U2). Safe. -/
  | accessMisaligned (addr : Nat)
  deriving DecidableEq, Repr

/-- R30, R300: the engine right after reset: every register 0, the schedule all zero, no window byte
written. -/
def Engine.reset : Engine :=
  { cmd := 0, busy := false, keyValid := false, errCode := .ok
    keyLen := 0, key := Quad.zero, ivLen := 0, iv := Quad.zero
    blkLen := 0, blkIn := Quad.zero, blkOut := Quad.zero
    inLen := 0, outLen := 0, inBuf := [], outBuf := [], rk := Schedule.zero }

/-- The host without a program: it makes no access. -/
def HostAgent.idle : HostAgent := { prog := [], pc := 0, vars := [], sweep := none }

/-- The machine with parameters `p` right after reset, with a host that makes no access. -/
def State.resetWith (p : Params) : State :=
  { params := p, engine := Engine.reset, host := HostAgent.idle, delay := 0, draws := 0, resets := 0 }

/-- The machine right after reset, for the default parameters. -/
def State.reset : State := State.resetWith Config.params

end Sys2Proof.Machine
end

