-- ==== Sys2Proof/Machine/Operands.lean ====
section
/-! DEFINITION. Machine/Operands.lean: the operand forms of R108: the byte views of the register quads (R37,
R70), the window bytes and words (R63), the buffer a codec command reads (R225), and the order in which
bytes make up columns, blocks and byte strings (R173). -/

namespace Sys2Proof

/-- R37, R70: the four bytes of a word, bits [31:24] first. -/
def Col.ofWord (w : Word) : Col :=
  ⟨w.extractLsb' 24 8, w.extractLsb' 16 8, w.extractLsb' 8 8, w.extractLsb' 0 8⟩

/-- R37, R63, R70: four bytes packed into a word, the first most significant. -/
def Col.toWord (c : Col) : Word := c.a0 ++ c.a1 ++ c.a2 ++ c.a3

/-- R37: the 16 bytes four registers hold, byte 0 in bits [31:24] of register 0. -/
def Quad.toBlock (q : Quad) : Block :=
  ⟨Col.ofWord q.r0, Col.ofWord q.r1, Col.ofWord q.r2, Col.ofWord q.r3⟩

/-- R37: 16 bytes written through the byte views of four registers. -/
def Block.toQuad (b : Block) : Quad :=
  ⟨Col.toWord b.c0, Col.toWord b.c1, Col.toWord b.c2, Col.toWord b.c3⟩

/-- Register `j` of a group of four. -/
def Quad.get (q : Quad) : Fin 4 → Word
  | 0 => q.r0
  | 1 => q.r1
  | 2 => q.r2
  | 3 => q.r3

/-- Write register `j` of a group of four. -/
def Quad.set (q : Quad) (v : Word) : Fin 4 → Quad
  | 0 => { q with r0 := v }
  | 1 => { q with r1 := v }
  | 2 => { q with r2 := v }
  | 3 => { q with r3 := v }

/-- The four bytes of a column in order. -/
def Col.toBytes (c : Col) : List Byte := [c.a0, c.a1, c.a2, c.a3]

/-- R173: the 16 bytes of a block in order. -/
def Block.toBytes (b : Block) : List Byte :=
  b.c0.toBytes ++ b.c1.toBytes ++ b.c2.toBytes ++ b.c3.toBytes

/-- Byte `i` of a block, `i < 16`. -/
def Block.byte (b : Block) (i : Nat) : Byte := b.toBytes.getD i 0

/-- The columns a byte string is made of, four bytes each (R173); a rest shorter than four is dropped. -/
def columnsOf : List Byte → List Col
  | a0 :: a1 :: a2 :: a3 :: rest => ⟨a0, a1, a2, a3⟩ :: columnsOf rest
  | _ => []

/-- The blocks a string of columns is made of, four columns each; a rest shorter than four is dropped. -/
def blocksOfColumns : List Col → List Block
  | c0 :: c1 :: c2 :: c3 :: rest => ⟨c0, c1, c2, c3⟩ :: blocksOfColumns rest
  | _ => []

/-- R222: the blocks `D_0, D_1, ...` of a byte string whose length is a multiple of 16. -/
def blocksOf (d : List Byte) : List Block := blocksOfColumns (columnsOf d)

/-- The byte string of a sequence of blocks (R12 concatenation). -/
def bytesOf (bs : List Block) : List Byte := bs.flatMap Block.toBytes

end Sys2Proof

namespace Sys2Proof.Machine

/-- R43, R44: byte `i` of a window: what was last written to it since reset, or the value drawn for it at
reset (log entry 5). -/
def windowByte (resets : Nat) (w : Window) (m : Memory) (i : Nat) : Byte :=
  (Sparse.read m i).getD (Config.unwrittenByte resets w i)

/-- `InBuf[i]`. -/
def State.inByte (s : State) (i : Nat) : Byte := windowByte s.resets .inBuf s.engine.inBuf i

/-- `OutBuf[i]`. -/
def State.outByte (s : State) (i : Nat) : Byte := windowByte s.resets .outBuf s.engine.outBuf i

/-- R63: `word(Buf, k)`, packed most significant byte first, of a window given by its bytes. -/
def windowWord (byteAt : Nat → Byte) (k : Nat) : Word :=
  Col.toWord ⟨byteAt (4 * k), byteAt (4 * k + 1), byteAt (4 * k + 2), byteAt (4 * k + 3)⟩

/-- R225: the input of a buffer command, `InBuf[0 .. L)` with `L = IN_LEN`. -/
def State.input (s : State) : List Byte := (List.range s.engine.inLen.toNat).map s.inByte

/-- `KEY[0..16)` (R37). -/
def Engine.keyBlock (e : Engine) : Block := e.key.toBlock

/-- `IV[0..16)` (R37). -/
def Engine.ivBlock (e : Engine) : Block := e.iv.toBlock

/-- `BLKIN[0..16)` (R37). -/
def Engine.inBlock (e : Engine) : Block := e.blkIn.toBlock

end Sys2Proof.Machine
end

