-- ==== Sys2Proof/Machine/Field.lean ====
section
/-! DEFINITION. Machine/Field.lean: arithmetic in GF(2^8) (R170 to R172) and bytewise exclusive-or (R12). -/

namespace Sys2Proof

/-- R171: multiplication by `x`, modulo `0x11B`. -/
def xtime (a : Byte) : Byte := (a <<< 1) ^^^ (if a.getLsbD 7 then 0x1B else 0x00)

/-- R172: `n` turns of the shift-and-add loop of `gmul`. -/
def gmulLoop : Nat → Byte → Byte → Byte → Byte
  | 0, _, _, p => p
  | n + 1, a, b, p => gmulLoop n (xtime a) (b >>> 1) (if b.getLsbD 0 then p ^^^ a else p)

/-- R172: the field product, by shift-and-add. -/
def gmul (a b : Byte) : Byte := gmulLoop 8 a b 0x00

/-- The 256 bytes, in order. -/
def allBytes : List Byte := (List.range 256).map (BitVec.ofNat 8)

/-- R172: the multiplicative inverse, the byte `c` with `gmul(a, c) = 0x01`; 0x00 for 0x00, which has
none. -/
def inv (a : Byte) : Byte := (allBytes.find? (fun c => gmul a c == 0x01)).getD 0x00

/-- R131: rotate a byte left by `s` positions. -/
def rotl8 (b : Byte) (s : Nat) : Byte := (b <<< s) ||| (b >>> (8 - s))

/-- R12: exclusive-or of four bytes. -/
def Col.xor (x y : Col) : Col := ⟨x.a0 ^^^ y.a0, x.a1 ^^^ y.a1, x.a2 ^^^ y.a2, x.a3 ^^^ y.a3⟩

/-- R12: bytewise exclusive-or of two blocks. -/
def Block.xor (x y : Block) : Block :=
  ⟨x.c0.xor y.c0, x.c1.xor y.c1, x.c2.xor y.c2, x.c3.xor y.c3⟩

/-- Apply a function to each byte of a column. -/
def Col.map (f : Byte → Byte) (x : Col) : Col := ⟨f x.a0, f x.a1, f x.a2, f x.a3⟩

/-- Apply a function to each column of a block. -/
def Block.mapCols (f : Col → Col) (x : Block) : Block := ⟨f x.c0, f x.c1, f x.c2, f x.c3⟩

end Sys2Proof
end

