-- ==== Sys2Proof/Machine/Flags.lean ====
section
/-! DEFINITION. Machine/Flags.lean: the only flags the engine has are the fields of `STATUS` (R33, R49): the
numbers of the status codes (R270), the word a read of `STATUS` gives, and the writes of the flags. -/

namespace Sys2Proof.Machine

/-- R270: the number of each status code, the value of the 4-bit field `ERRCODE`. -/
def Code.number : Code → BitVec 4
  | .ok => 0
  | .invalidKeyLength => 1
  | .invalidIVLength => 2
  | .invalidBlockLength => 3
  | .unsupportedMode => 4
  | .paddingError => 5
  | .illegalCommand => 6
  | .lengthOverflow => 7

/-- R33, R65: `STATUS` as a read gives it: `BUSY` in bit 0, `KEY_VALID` in bit 1, `ERRCODE` in bits
[7:4], every other bit 0. -/
def Engine.statusWord (e : Engine) : Word :=
  (e.errCode.number.zeroExtend 32 <<< 4) |||
    ((BitVec.ofBool e.keyValid).zeroExtend 32 <<< 1) ||| (BitVec.ofBool e.busy).zeroExtend 32

/-- R110: the end of every command: `ERRCODE` takes the status code and `BUSY` is cleared. -/
def Engine.complete (c : Code) (e : Engine) : Engine := { e with errCode := c, busy := false }

/-- R67: the flag side of an accepted write to `CMD`: `BUSY` is set; `ERRCODE` and `KEY_VALID` keep their
values. -/
def Engine.setBusy (e : Engine) : Engine := { e with busy := true }

end Sys2Proof.Machine
end

