-- ==== Sys2Proof/Machine/Ops.lean ====
section
/-! DEFINITION. Machine/Ops.lean: the named operations the commands are made of: completing (R15, R110),
raising an error (R274: this engine's only form of taking an exception, R281; there is no return from
one, R282), the checks in the order of R272, and the writes of the key schedule, of `BLK_OUT` and of
the output window (R227). -/

namespace Sys2Proof.Machine

/-- Put an engine state into the machine; everything outside the engine stays. -/
def State.withEngine (s : State) (e : Engine) : State := { s with engine := e }

/-- R15 `complete OK`: the command whose effects gave `e` ends with status code 0. -/
def State.completeOk (s : State) (e : Engine) : State := s.withEngine (e.complete .ok)

/-- R140, R141: every byte of the schedule 0x00 and `KEY_VALID` cleared. -/
def Engine.clearSchedule (e : Engine) : Engine := { e with rk := Schedule.zero, keyValid := false }

/-- R140: a schedule is loaded and `KEY_VALID` set. -/
def Engine.loadSchedule (e : Engine) (rk : Schedule) : Engine := { e with rk := rk, keyValid := true }

/-- R190, R191: `BLKOUT[0..16)` is written. -/
def Engine.setBlkOut (e : Engine) (b : Block) : Engine := { e with blkOut := b.toQuad }

/-- R227: a buffer command's result goes to `OutBuf[0 .. n)` and its length to `OUT_LEN`. -/
def Engine.commitOutput (e : Engine) (r : List Byte) : Engine :=
  { e with outBuf := Sparse.writeAll e.outBuf 0 r, outLen := BitVec.ofNat 32 r.length }

/-- R227, R274: a failing buffer command sets `OUT_LEN` to 0 and writes no byte of `OutBuf`. -/
def Engine.dropOutput (e : Engine) : Engine := { e with outLen := 0 }

/-- The rows of R274's table: what kind of command failed. -/
inductive Failing where
  /-- `Illegal`. -/
  | illegal
  /-- `KEXP`. -/
  | keyExpansion
  /-- `EBLK`, `DBLK`. -/
  | block
  /-- `EBUF.*`, `DBUF.*`, `*_BADMODE`. -/
  | buffer
  deriving DecidableEq, Repr

/-- R274: what a failing command changes besides `ERRCODE` and `BUSY`. -/
def Engine.failEffect (k : Failing) (e : Engine) : Engine :=
  match k with
  | .illegal => e
  | .keyExpansion => e.clearSchedule
  | .block => e
  | .buffer => e.dropOutput

/-- R15 `raise`, R274: a command of kind `k` ends with the error code `c`. -/
def State.raise (s : State) (k : Failing) (c : Code) : State :=
  s.withEngine ((s.engine.failEffect k).complete c)

/-- R273: a block or buffer command needs a loaded schedule. -/
def Engine.keyCheck (e : Engine) : Option Code :=
  if e.keyValid then none else some .invalidKeyLength

/-- R231, R233: a CBC command needs `IV_LEN = 16`. -/
def Engine.ivCheck (e : Engine) : Option Code :=
  if e.ivLen = 16 then none else some .invalidIVLength

/-- R190, R191: a block command needs `BLK_LEN = 16`. -/
def Engine.blkLenCheck (e : Engine) : Option Code :=
  if e.blkLen = 16 then none else some .invalidBlockLength

/-- R224: `EBUF.*` fails if `L ≥ B`. Lengths are natural numbers (R14). -/
def Engine.encryptBoundCheck (e : Engine) (p : Params) : Option Code :=
  if e.inLen.toNat ≥ p.bufBytes then some .lengthOverflow else none

/-- R224: `DBUF.*` fails if `L > B`. -/
def Engine.decryptBoundCheck (e : Engine) (p : Params) : Option Code :=
  if e.inLen.toNat > p.bufBytes then some .lengthOverflow else none

/-- R226: `DBUF.*` fails if `L = 0` or `L mod 16 ≠ 0`. -/
def Engine.wholeBlocksCheck (e : Engine) : Option Code :=
  if e.inLen.toNat = 0 ∨ e.inLen.toNat % 16 ≠ 0 then some .invalidBlockLength else none

/-- R272: the first condition that holds is the one reported. -/
def firstError : List (Option Code) → Option Code
  | [] => none
  | some c :: _ => some c
  | none :: rest => firstError rest

end Sys2Proof.Machine
end

