-- ==== Sys2Proof/Machine/KeySchedule.lean ====
section
/-! DEFINITION. Machine/KeySchedule.lean: the Key Schedule Expander (spec/40_key_schedule.md): the substitution
table, `Expand`, and the commands `KEXP` and `KCLR`. -/

namespace Sys2Proof

/-- R130: the table `SBOX`, one number per row, its byte in column 0 written first. -/
def sboxRows : List (BitVec 128) :=
  [ 0x637c777bf26b6fc53001672bfed7ab76#128,
    0xca82c97dfa5947f0add4a2af9ca472c0#128,
    0xb7fd9326363ff7cc34a5e5f171d83115#128,
    0x04c723c31896059a071280e2eb27b275#128,
    0x09832c1a1b6e5aa0523bd6b329e32f84#128,
    0x53d100ed20fcb15b6acbbe394a4c58cf#128,
    0xd0efaafb434d338545f9027f503c9fa8#128,
    0x51a3408f929d38f5bcb6da2110fff3d2#128,
    0xcd0c13ec5f974417c4a77e3d645d1973#128,
    0x60814fdc222a908846eeb814de5e0bdb#128,
    0xe0323a0a4906245cc2d3ac629195e479#128,
    0xe7c8376d8dd54ea96c56f4ea657aae08#128,
    0xba78252e1ca6b4c6e8dd741f4bbd8b8a#128,
    0x703eb5664803f60e613557b986c11d9e#128,
    0xe1f8981169d98e949b1e87e9ce5528df#128,
    0x8ca1890dbfe6426841992d0fb054bb16#128 ]

/-- A byte of a 256-entry table given by rows as in R130: the high hex digit of `x` selects the row, the
low one the column. -/
def tableByte (rows : List (BitVec 128)) (x : Byte) : Byte :=
  (rows.getD (x.toNat / 16) 0).extractLsb' (8 * (15 - x.toNat % 16)) 8

/-- R130: `SBOX`. -/
def sbox (x : Byte) : Byte := tableByte sboxRows x

/-- R131: the algebraic definition of `SBOX`, which the table agrees with at every byte. -/
def sboxAlgebraic (x : Byte) : Byte :=
  let b := inv x
  b ^^^ rotl8 b 1 ^^^ rotl8 b 2 ^^^ rotl8 b 3 ^^^ rotl8 b 4 ^^^ 0x63

/-- R132. -/
def subWord (w : Col) : Col := w.map sbox

/-- R133. -/
def rotWord (w : Col) : Col := ⟨w.a1, w.a2, w.a3, w.a0⟩

/-- R134: the byte `rc_i`, `i = 1..10`: 0x01 and then `xtime` of the one before. -/
def rc : Nat → Byte
  | 0 => 0x00
  | 1 => 0x01
  | i + 2 => xtime (rc (i + 1))

/-- R134: the round constant, the word `(rc_i, 0, 0, 0)`. -/
def rcon (i : Nat) : Col := ⟨rc i, 0x00, 0x00, 0x00⟩

/-- R136 for the four words of round key `i` (the loop's `4i .. 4i+3`), given round key `i - 1`: the first
word takes rotation, substitution and constant; every word is XORed with the one four positions back. -/
def nextRoundKey (i : Nat) (k : Block) : Block :=
  let w0 := k.c0.xor ((subWord (rotWord k.c3)).xor (rcon i))
  let w1 := k.c1.xor w0
  let w2 := k.c2.xor w1
  let w3 := k.c3.xor w2
  ⟨w0, w1, w2, w3⟩

/-- R135, R136: round key `r` of the expansion of `k`; round key 0 is the key itself. -/
def roundKey (k : Block) : Nat → Block
  | 0 => k
  | r + 1 => nextRoundKey (r + 1) (roundKey k r)

/-- R136: `Expand`, the eleven round keys of a 16-byte key. -/
def expand (k : Block) : Schedule :=
  ⟨roundKey k 0, roundKey k 1, roundKey k 2, roundKey k 3, roundKey k 4, roundKey k 5, roundKey k 6,
   roundKey k 7, roundKey k 8, roundKey k 9, roundKey k 10⟩

/-- R135: the round keys in order. -/
def Schedule.keys (rk : Schedule) : List Block :=
  [rk.rk0, rk.rk1, rk.rk2, rk.rk3, rk.rk4, rk.rk5, rk.rk6, rk.rk7, rk.rk8, rk.rk9, rk.rk10]

/-- R135: the 44 words `w[0..44)` of a schedule. -/
def Schedule.words (rk : Schedule) : List Col := rk.keys.flatMap fun k => [k.c0, k.c1, k.c2, k.c3]

end Sys2Proof

namespace Sys2Proof.Machine

/-- R140 `KEXP`: expand the key; with a wrong `KEY_LEN` destroy the schedule and report it. -/
def execKexp (s : State) : Host.Outcome State Fault Refusal :=
  if s.engine.keyLen ≠ 16 then .next (s.raise .keyExpansion .invalidKeyLength)
  else .next (s.completeOk (s.engine.loadSchedule (expand s.engine.keyBlock)))

/-- R141 `KCLR`: release the schedule. -/
def execKclr (s : State) : Host.Outcome State Fault Refusal :=
  .next (s.completeOk s.engine.clearSchedule)

end Sys2Proof.Machine
end

