-- ==== Sys2Proof/Machine/BlockTransform.lean ====
section
/-! DEFINITION. Machine/BlockTransform.lean: the Block Transform Core (spec/41_block_transform.md): the round
functions on the AES state, the cipher and its inverse, and the commands `EBLK` and `DBLK`. -/

namespace Sys2Proof

/-- R178: the table `INV_SBOX`, one number per row, its byte in column 0 written first. -/
def invSboxRows : List (BitVec 128) :=
  [ 0x52096ad53036a538bf40a39e81f3d7fb#128,
    0x7ce339829b2fff87348e4344c4dee9cb#128,
    0x547b9432a6c2233dee4c950b42fac34e#128,
    0x082ea16628d924b2765ba2496d8bd125#128,
    0x72f8f66486689816d4a45ccc5d65b692#128,
    0x6c704850fdedb9da5e154657a78d9d84#128,
    0x90d8ab008cbcd30af7e45805b8b34506#128,
    0xd02c1e8fca3f0f02c1afbd0301138a6b#128,
    0x3a9111414f67dcea97f2cfcef0b4e673#128,
    0x96ac7422e7ad3585e2f937e81c75df6e#128,
    0x47f11a711d29c5896fb7620eaa18be1b#128,
    0xfc563e4bc6d279209adbc0fe78cd5af4#128,
    0x1fdda8338807c731b11210592780ec5f#128,
    0x60517fa919b54a0d2de57a9f93c99cef#128,
    0xa0e03b4dae2af5b0c8ebbb3c83539961#128,
    0x172b047eba77d626e169146355210c7d#128 ]

/-- R178: `INV_SBOX`. -/
def invSbox (x : Byte) : Byte := tableByte invSboxRows x

/-- R174: exclusive-or with a round key. -/
def addRoundKey (s k : Block) : Block := s.xor k

/-- R175. -/
def subBytes (s : Block) : Block := s.mapCols (Col.map sbox)

/-- R178. -/
def invSubBytes (s : Block) : Block := s.mapCols (Col.map invSbox)

/-- R176: row `r` of column `c` comes from column `c + r` (mod 4). -/
def shiftRows (s : Block) : Block :=
  ⟨⟨s.c0.a0, s.c1.a1, s.c2.a2, s.c3.a3⟩,
   ⟨s.c1.a0, s.c2.a1, s.c3.a2, s.c0.a3⟩,
   ⟨s.c2.a0, s.c3.a1, s.c0.a2, s.c1.a3⟩,
   ⟨s.c3.a0, s.c0.a1, s.c1.a2, s.c2.a3⟩⟩

/-- R179: row `r` of column `c` comes from column `c - r` (mod 4). -/
def invShiftRows (s : Block) : Block :=
  ⟨⟨s.c0.a0, s.c3.a1, s.c2.a2, s.c1.a3⟩,
   ⟨s.c1.a0, s.c0.a1, s.c3.a2, s.c2.a3⟩,
   ⟨s.c2.a0, s.c1.a1, s.c0.a2, s.c3.a3⟩,
   ⟨s.c3.a0, s.c2.a1, s.c1.a2, s.c0.a3⟩⟩

/-- R180: a column times the circulant matrix with first row `m0 m1 m2 m3`. -/
def circulant (m0 m1 m2 m3 : Byte) (x : Col) : Col :=
  ⟨gmul m0 x.a0 ^^^ gmul m1 x.a1 ^^^ gmul m2 x.a2 ^^^ gmul m3 x.a3,
   gmul m3 x.a0 ^^^ gmul m0 x.a1 ^^^ gmul m1 x.a2 ^^^ gmul m2 x.a3,
   gmul m2 x.a0 ^^^ gmul m3 x.a1 ^^^ gmul m0 x.a2 ^^^ gmul m1 x.a3,
   gmul m1 x.a0 ^^^ gmul m2 x.a1 ^^^ gmul m3 x.a2 ^^^ gmul m0 x.a3⟩

/-- R177: one column of `MixColumns`. -/
def mixColumn (x : Col) : Col :=
  ⟨gmul 0x02 x.a0 ^^^ gmul 0x03 x.a1 ^^^ x.a2 ^^^ x.a3,
   x.a0 ^^^ gmul 0x02 x.a1 ^^^ gmul 0x03 x.a2 ^^^ x.a3,
   x.a0 ^^^ x.a1 ^^^ gmul 0x02 x.a2 ^^^ gmul 0x03 x.a3,
   gmul 0x03 x.a0 ^^^ x.a1 ^^^ x.a2 ^^^ gmul 0x02 x.a3⟩

/-- R180: one column of `InvMixColumns`, the circulant of `(0e, 0b, 0d, 09)`. -/
def invMixColumn (x : Col) : Col := circulant 0x0e 0x0b 0x0d 0x09 x

/-- R177. -/
def mixColumns (s : Block) : Block := s.mapCols mixColumn

/-- R180. -/
def invMixColumns (s : Block) : Block := s.mapCols invMixColumn

/-- The round keys of rounds 1 to 9 (R181, R182). -/
def Schedule.middle (rk : Schedule) : List Block :=
  [rk.rk1, rk.rk2, rk.rk3, rk.rk4, rk.rk5, rk.rk6, rk.rk7, rk.rk8, rk.rk9]

/-- R181: one of rounds 1 to 9. -/
def cipherRound (s k : Block) : Block := addRoundKey (mixColumns (shiftRows (subBytes s))) k

/-- R182: one of the inverse rounds 9 down to 1. -/
def invCipherRound (s k : Block) : Block :=
  invMixColumns (addRoundKey (invSubBytes (invShiftRows s)) k)

/-- R181: `Cipher`. Round 10 has no `MixColumns`. -/
def cipher (b : Block) (rk : Schedule) : Block :=
  addRoundKey (shiftRows (subBytes (rk.middle.foldl cipherRound (addRoundKey b rk.rk0)))) rk.rk10

/-- R182: `InvCipher`; the round keys are consumed in reverse order. -/
def invCipher (b : Block) (rk : Schedule) : Block :=
  addRoundKey
    (invSubBytes (invShiftRows (rk.middle.reverse.foldl invCipherRound (addRoundKey b rk.rk10))))
    rk.rk0

end Sys2Proof

namespace Sys2Proof.Machine

/-- R190, R191, R272: the checks of a block command, in order. -/
def Engine.blockError (e : Engine) : Option Code := firstError [e.keyCheck, e.blkLenCheck]

/-- R190 `EBLK`: encrypt `BLK_IN` into `BLK_OUT`. -/
def execEblk (s : State) : Host.Outcome State Fault Refusal :=
  match s.engine.blockError with
  | some c => .next (s.raise .block c)
  | none => .next (s.completeOk (s.engine.setBlkOut (cipher s.engine.inBlock s.engine.rk)))

/-- R191 `DBLK`: decrypt `BLK_IN` into `BLK_OUT`. -/
def execDblk (s : State) : Host.Outcome State Fault Refusal :=
  match s.engine.blockError with
  | some c => .next (s.raise .block c)
  | none => .next (s.completeOk (s.engine.setBlkOut (invCipher s.engine.inBlock s.engine.rk)))

end Sys2Proof.Machine
end

