-- ==== Sys2Proof/Machine/BufferCodec.lean ====
section
/-! DEFINITION. Machine/BufferCodec.lean: the Buffer Codec (spec/42_buffer_codec.md): padding, the ECB and CBC
modes, the four buffer commands, and the two `*_BADMODE` values of decoding (R106). -/

namespace Sys2Proof

/-- R220: the pad length of a plaintext of `n` bytes, 1 to 16. -/
def padLength (n : Nat) : Nat := 16 - n % 16

/-- R220: `Pad`. -/
def pad (p : List Byte) : List Byte :=
  p ++ List.replicate (padLength p.length) (BitVec.ofNat 8 (padLength p.length))

/-- R221: `Unpad`; `none` stands for `PaddingError`. -/
def unpad (d : List Byte) : Option (List Byte) :=
  let p := d.getLastD 0x00
  if p = 0x00 ∨ p > 0x10 then none
  else if (d.drop (d.length - p.toNat)).all (fun b => b == p) then
    some (d.take (d.length - p.toNat))
  else none

/-- R222: ECB encryption of a string of whole blocks. -/
def ecbEnc (d : List Byte) (rk : Schedule) : List Byte :=
  bytesOf ((blocksOf d).map fun b => cipher b rk)

/-- R222: ECB decryption of a string of whole blocks. -/
def ecbDec (c : List Byte) (rk : Schedule) : List Byte :=
  bytesOf ((blocksOf c).map fun b => invCipher b rk)

/-- R223: the blocks of CBC encryption; `prev` is the previous ciphertext block, or the IV. -/
def cbcEncBlocks (rk : Schedule) : Block → List Block → List Block
  | _, [] => []
  | prev, d :: ds =>
    let c := cipher (d.xor prev) rk
    c :: cbcEncBlocks rk c ds

/-- R223: the blocks of CBC decryption. -/
def cbcDecBlocks (rk : Schedule) : Block → List Block → List Block
  | _, [] => []
  | prev, c :: cs => (invCipher c rk).xor prev :: cbcDecBlocks rk c cs

/-- R223: CBC encryption of a string of whole blocks. -/
def cbcEnc (d : List Byte) (rk : Schedule) (iv : Block) : List Byte :=
  bytesOf (cbcEncBlocks rk iv (blocksOf d))

/-- R223: CBC decryption of a string of whole blocks. -/
def cbcDec (c : List Byte) (rk : Schedule) (iv : Block) : List Byte :=
  bytesOf (cbcDecBlocks rk iv (blocksOf c))

end Sys2Proof

namespace Sys2Proof.Machine

/-- R230, R231: an encrypting buffer command whose checks gave `err`: pad the input, transform it, commit
the result. -/
def State.encryptBuffer (s : State) (err : Option Code) (transform : List Byte → List Byte) : State :=
  match err with
  | some c => s.raise .buffer c
  | none => s.completeOk (s.engine.commitOutput (transform (pad s.input)))

/-- R232, R233: a decrypting buffer command whose checks gave `err`: transform the input, strip the
padding, commit the result; bad padding is the last error of R272. -/
def State.decryptBuffer (s : State) (err : Option Code) (transform : List Byte → List Byte) : State :=
  match err with
  | some c => s.raise .buffer c
  | none =>
    match unpad (transform s.input) with
    | none => s.raise .buffer .paddingError
    | some r => s.completeOk (s.engine.commitOutput r)

/-- R230, R272: the checks of `EBUF.ECB`, in order. -/
def State.ebufEcbError (s : State) : Option Code :=
  firstError [s.engine.keyCheck, s.engine.encryptBoundCheck s.params]

/-- R231, R272: the checks of `EBUF.CBC`, in order. -/
def State.ebufCbcError (s : State) : Option Code :=
  firstError [s.engine.keyCheck, s.engine.ivCheck, s.engine.encryptBoundCheck s.params]

/-- R232, R272: the checks of `DBUF.ECB` before its padding is known, in order. -/
def State.dbufEcbError (s : State) : Option Code :=
  firstError [s.engine.keyCheck, s.engine.decryptBoundCheck s.params, s.engine.wholeBlocksCheck]

/-- R233, R272: the checks of `DBUF.CBC` before its padding is known, in order. -/
def State.dbufCbcError (s : State) : Option Code :=
  firstError [s.engine.keyCheck, s.engine.ivCheck, s.engine.decryptBoundCheck s.params,
    s.engine.wholeBlocksCheck]

/-- R230 `EBUF.ECB`. -/
def execEbufEcb (s : State) : Host.Outcome State Fault Refusal :=
  .next (s.encryptBuffer s.ebufEcbError fun d => ecbEnc d s.engine.rk)

/-- R231 `EBUF.CBC`. -/
def execEbufCbc (s : State) : Host.Outcome State Fault Refusal :=
  .next (s.encryptBuffer s.ebufCbcError fun d => cbcEnc d s.engine.rk s.engine.ivBlock)

/-- R232 `DBUF.ECB`. -/
def execDbufEcb (s : State) : Host.Outcome State Fault Refusal :=
  .next (s.decryptBuffer s.dbufEcbError fun c => ecbDec c s.engine.rk)

/-- R233 `DBUF.CBC`. -/
def execDbufCbc (s : State) : Host.Outcome State Fault Refusal :=
  .next (s.decryptBuffer s.dbufCbcError fun c => cbcDec c s.engine.rk s.engine.ivBlock)

/-- R106, R272: the error of a `*_BADMODE` command: no schedule, else the mode. -/
def Engine.badModeError (e : Engine) : Code :=
  (firstError [e.keyCheck]).getD .unsupportedMode

/-- R106 `EBUF_BADMODE`. -/
def execEbufBadMode (s : State) : Host.Outcome State Fault Refusal :=
  .next (s.raise .buffer s.engine.badModeError)

/-- R106 `DBUF_BADMODE`. -/
def execDbufBadMode (s : State) : Host.Outcome State Fault Refusal :=
  .next (s.raise .buffer s.engine.badModeError)

end Sys2Proof.Machine
end

