-- ==== Sys2Proof/Machine/System.lean ====
section
/-! DEFINITION. Machine/System.lean: the system command `NOP` (R260) and the words that decode to no command
(R105). -/

namespace Sys2Proof.Machine

/-- R260 `NOP`: complete OK, and nothing else. -/
def execNop (s : State) : Host.Outcome State Fault Refusal := .next (s.completeOk s.engine)

/-- R105: an `Illegal` word completes with `IllegalCommand`. -/
def execIllegal (s : State) : Host.Outcome State Fault Refusal :=
  .next (s.raise .illegal .illegalCommand)

end Sys2Proof.Machine
end

