-- ==== Sys2Proof/Machine/Dispatch.lean ====
section
/-! DEFINITION. Machine/Dispatch.lean: R110 `perform`, for the nine commands: one arm per command. -/

namespace Sys2Proof.Machine

def exec (i : Instr) (s : State) : Host.Outcome State Fault Refusal :=
  match i with
  | .nop => Sys2Proof.Machine.execNop s
  | .kexp => Sys2Proof.Machine.execKexp s
  | .kclr => Sys2Proof.Machine.execKclr s
  | .eblk => Sys2Proof.Machine.execEblk s
  | .dblk => Sys2Proof.Machine.execDblk s
  | .ebufEcb => Sys2Proof.Machine.execEbufEcb s
  | .ebufCbc => Sys2Proof.Machine.execEbufCbc s
  | .dbufEcb => Sys2Proof.Machine.execDbufEcb s
  | .dbufCbc => Sys2Proof.Machine.execDbufCbc s

end Sys2Proof.Machine
end

