-- ==== Sys2Proof/Machine/Engine.lean ====
section
/-! DEFINITION. Machine/Engine.lean: R110, the engine step: decode the latched word and perform it. -/

namespace Sys2Proof.Machine

/-- R110 `perform`, for the twelve values of decoding. -/
def perform (d : Decoded) (s : State) : Host.Outcome State Fault Refusal :=
  match d with
  | .command i => exec i s
  | .ebufBadMode => execEbufBadMode s
  | .dbufBadMode => execDbufBadMode s
  | .illegal => execIllegal s

/-- R110 `EngineStep`: every command writes `ERRCODE` and clears `BUSY` as part of its own meaning. -/
def engineStep (s : State) : Host.Outcome State Fault Refusal := perform (decode s.engine.cmd) s

/-- R110, R313: it is the engine's turn: a command is in progress and no further host step comes before
the engine step. -/
def State.engineTurn (s : State) : Bool := s.engine.busy && s.delay == 0

/-- The state in which word `w` is the latched command and the engine step comes next (R32, R67). -/
def State.latch (s : State) (w : Word) : State :=
  { s with engine := { s.engine with cmd := w }.setBusy, delay := 0 }

end Sys2Proof.Machine
end

