-- ==== Sys2Proof/Machine/AddressMap.lean ====
section
/-! DEFINITION. Machine/AddressMap.lean: the register region (R61, R62): the offset of each register, what each
offset names, and which host accesses have a meaning (R64). -/

namespace Sys2Proof

/-- R62: the offset of a register. -/
def RegName.offset : RegName → Nat
  | .id => 0x00000
  | .cmd => 0x00004
  | .status => 0x00008
  | .keyLen => 0x0000C
  | .key j => 0x00010 + 4 * j.val
  | .ivLen => 0x00020
  | .iv j => 0x00024 + 4 * j.val
  | .blkLen => 0x00034
  | .blkIn j => 0x00038 + 4 * j.val
  | .blkOut j => 0x00048 + 4 * j.val
  | .inLen => 0x00058
  | .outLen => 0x0005C

end Sys2Proof

namespace Sys2Proof.Machine

/-- R31: the constant the `ID` register reads as, ASCII "AES1". -/
def idValue : Word := 0x41455331

/-- R61: the size of the region in bytes. -/
abbrev regionBytes : Nat := 0x30000

/-- R62: the offset of the `IN_BUF` window. -/
abbrev inBufOffset : Nat := 0x10000

/-- R62: the offset of the `OUT_BUF` window. -/
abbrev outBufOffset : Nat := 0x20000

/-- R62: the registers in the order of their offsets 0x00000, 0x00004, ..., 0x0005C. -/
def registerMap : List RegName :=
  [.id, .cmd, .status, .keyLen, .key 0, .key 1, .key 2, .key 3, .ivLen, .iv 0, .iv 1, .iv 2, .iv 3,
   .blkLen, .blkIn 0, .blkIn 1, .blkIn 2, .blkIn 3, .blkOut 0, .blkOut 1, .blkOut 2, .blkOut 3,
   .inLen, .outLen]

/-- R62, R65: what an offset names, for `off < 0x30000` and `off mod 4 = 0`. -/
def locate (p : Params) (off : Nat) : Location :=
  match registerMap[off / 4]? with
  | some r => .reg r
  | none =>
    if inBufOffset ≤ off ∧ off < inBufOffset + p.bufBytes then .inWord ((off - inBufOffset) / 4)
    else if outBufOffset ≤ off ∧ off < outBufOffset + p.bufBytes then
      .outWord ((off - outBufOffset) / 4)
    else .reserved

/-- R61, R64: the offset a host access names, or why the model has no step for the access. -/
def accessOffset (p : Params) (width : AccessWidth) (addr : Nat) : Except Refusal Nat :=
  if addr < p.base ∨ p.base + regionBytes ≤ addr then .error (.accessOutsideRegion addr)
  else if width ≠ .bits32 then .error (.accessWidth addr)
  else if (addr - p.base) % 4 ≠ 0 then .error (.accessMisaligned addr)
  else .ok (addr - p.base)

end Sys2Proof.Machine
end

