-- ==== Sys2Proof/Machine/HostAccess.lean ====
section
/-! DEFINITION. Machine/HostAccess.lean: what the outside world does to the engine: `HostRead` (R65), `HostWrite`
(R66, R67), the platform's reset (R300), and one step of the host agent (R17, R112). -/

namespace Sys2Proof.Machine

/-- R65: the value a read of a register gives; `none` where the rule draws (`draw32`). -/
def Engine.readRegister (e : Engine) : RegName → Option Word
  | .id => some idValue
  | .cmd => some e.cmd
  | .status => some e.statusWord
  | .keyLen => some e.keyLen
  | .key _ => some 0x00000000
  | .ivLen => some e.ivLen
  | .iv j => some (e.iv.get j)
  | .blkLen => some e.blkLen
  | .blkIn j => some (e.blkIn.get j)
  | .blkOut j => if e.busy then none else some (e.blkOut.get j)
  | .inLen => some e.inLen
  | .outLen => if e.busy then none else some e.outLen

/-- R65 `HostRead(off)`; `none` where the rule draws. No state changes (R68). -/
def State.hostRead (s : State) (off : Nat) : Option Word :=
  match locate s.params off with
  | .reg r => s.engine.readRegister r
  | .inWord k => some (windowWord s.inByte k)
  | .outWord k => if s.engine.busy then none else some (windowWord s.outByte k)
  | .reserved => some 0x00000000

/-- R67: an accepted write to `CMD` latches the word and sets `BUSY`. When the engine step comes is drawn
here (R313, log entry 6). -/
def State.acceptCommand (s : State) (v : Word) : State :=
  { s with
    engine := { s.engine with cmd := v }.setBusy
    delay := Config.engineDelay s.draws
    draws := s.draws + 1 }

/-- R66: a write to a register while no command is in progress. -/
def State.writeRegister (s : State) (v : Word) : RegName → State
  | .id => s
  | .cmd => s.acceptCommand v
  | .status => s
  | .keyLen => s.withEngine { s.engine with keyLen := v }
  | .key j => s.withEngine { s.engine with key := s.engine.key.set v j }
  | .ivLen => s.withEngine { s.engine with ivLen := v }
  | .iv j => s.withEngine { s.engine with iv := s.engine.iv.set v j }
  | .blkLen => s.withEngine { s.engine with blkLen := v }
  | .blkIn j => s.withEngine { s.engine with blkIn := s.engine.blkIn.set v j }
  | .blkOut _ => s
  | .inLen => s.withEngine { s.engine with inLen := v }
  | .outLen => s

/-- R63, R66: word `k` of `IN_BUF` is written, its most significant byte at byte `4k`. -/
def State.writeInWord (s : State) (k : Nat) (v : Word) : State :=
  s.withEngine { s.engine with
    inBuf := Sparse.writeAll s.engine.inBuf (4 * k) (Col.ofWord v).toBytes }

/-- R66 `HostWrite(off, v)`. -/
def State.hostWrite (s : State) (off : Nat) (v : Word) : State :=
  if s.engine.busy then s
  else
    match locate s.params off with
    | .reg r => s.writeRegister v r
    | .inWord k => s.writeInWord k v
    | .outWord _ => s
    | .reserved => s

/-- R300, R302: the platform resets the engine: every field at its reset value, a command in progress
abandoned, the window bytes drawn anew (U5). The host is not the engine's and goes on. -/
def State.platformReset (s : State) : State :=
  { s with engine := Engine.reset, delay := 0, resets := s.resets + 1 }

/-- The value of a host variable; a free value where the program has assigned none (log entry 8). -/
def State.hostVar (s : State) (t : Nat) : Word :=
  (Sparse.read s.host.vars t).getD (Config.hostVariable t)

/-- R112: the value a `write` stores. -/
def State.hostVal (s : State) : HostVal → Word
  | .imm v => v
  | .var t => s.hostVar t

/-- The host goes to position `n` of its program. -/
def State.jump (s : State) (n : Nat) : State := { s with host := { s.host with pc := n } }

/-- The host goes to the next position of its program. -/
def State.advance (s : State) : State := s.jump (s.host.pc + 1)

/-- The host assigns a variable. -/
def State.assign (s : State) (t : Nat) (v : Word) : State :=
  { s with host := { s.host with vars := Sparse.write s.host.vars t v } }

/-- R65, R112: a read access into variable `t`. Where the rule draws, the next free value is taken. -/
def State.readInto (s : State) (off : Nat) (t : Nat) : State :=
  match s.hostRead off with
  | some v => s.assign t v
  | none => { s.assign t (Config.drawWord s.draws) with draws := s.draws + 1 }

/-- R113: the word a `getbuf` loop reads next and how many it reads in all: `(n + 3) div 4`, taken from host
variable `n` when the loop begins. -/
def State.sweepAt (s : State) (n : Nat) : Sweep :=
  s.host.sweep.getD ⟨0, ((s.hostVar n).toNat + 3) / 4⟩

/-- The host enters, goes on with, or leaves a loop. -/
def State.setSweep (s : State) (w : Option Sweep) : State :=
  { s with host := { s.host with sweep := w } }

/-- The loop is over, and the host goes to the next position of its program. -/
def State.endSweep (s : State) : State := (s.setSweep none).advance

/-- The word `w.next` has been read: the loop goes on with the word after it, or is over. -/
def State.sweepOn (s : State) (w : Sweep) : State :=
  if w.next + 1 < w.total then s.setSweep (some ⟨w.next + 1, w.total⟩) else s.endSweep

/-- R113: one turn of the loop of `getbuf`: one read access; a loop of no words makes none. DESIGN CHOICE (log
entries 11 and 16): the loop is one operation of the host program, so no platform reset (R300) and no
access of another host falls between two of its reads; with the reads written out as single operations
one can. -/
def readWordsTurn (addr n t : Nat) (s : State) : Host.Outcome State Fault Refusal :=
  let w := s.sweepAt n
  if w.next < w.total then
    match accessOffset s.params .bits32 (addr + 4 * w.next) with
    | .error r => .refused r
    | .ok off => .next ((s.readInto off (t + w.next)).sweepOn w)
  else .next s.endSweep

/-- R112, R113: one operation of the host, or the platform's reset. -/
def hostOp (op : HostOp) (s : State) : Host.Outcome State Fault Refusal :=
  match op with
  | .write width addr v =>
    match accessOffset s.params width addr with
    | .error r => .refused r
    | .ok off => .next (s.hostWrite off (s.hostVal v)).advance
  | .read width addr t =>
    match accessOffset s.params width addr with
    | .error r => .refused r
    | .ok off => .next (s.readInto off t).advance
  | .readWords addr n t => readWordsTurn addr n t s
  | .bnz t mask target =>
    if s.hostVar t &&& mask ≠ 0 then .next (s.jump target) else .next s.advance
  | .reset => .next s.platformReset.advance

/-- The operation the host performs next; none after its last one (R317). -/
def State.nextOp (s : State) : Option HostOp := s.host.prog[s.host.pc]?

/-- R313: a host step passes; one fewer is left before the engine step. -/
def State.tick (s : State) : State := { s with delay := s.delay - 1 }

/-- R17: one step of the host. A host that has performed its last access lets time pass. -/
def hostTurn (s : State) : Host.Outcome State Fault Refusal :=
  match s.nextOp with
  | some op => hostOp op s.tick
  | none => .next s.tick

end Sys2Proof.Machine
end

