-- ==== Sys2Proof/Machine/Step.lean ====
section
/-! DEFINITION. Machine/Step.lean: one step of the machine: R75's single interleaving of host accesses and engine
steps. The engine fetches nothing (R48): the instruction it runs next is the word latched in `CMD`. -/

namespace Sys2Proof.Machine

/-- R17, R75: the engine's step when it is the engine's turn, the host's otherwise. -/
def step (s : State) : Host.Outcome State Fault Refusal :=
  if s.engineTurn then engineStep s else hostTurn s

/-- `s` as an accepted write of the given word to `CMD` leaves it (R67), with the engine step next. -/
def State.withFetchWord (s : State) (nbits w : Nat) : State := s.latch (tableWord nbits w)

end Sys2Proof.Machine
end

