-- ==== Sys2Proof/Machine/Assembler.lean ====
section
/-! DEFINITION. Machine/Assembler.lean: the host assembler of R112 and the expansions of R113, from the abstract
lines of Syntax.lean to the host's operations. It is the host's notation; the engine runs none of it. -/

namespace Sys2Proof.Machine

/-- R112: `write REG, v`. -/
def asmWrite (p : Params) (r : RegName) (v : HostVal) : HostOp :=
  .write .bits32 (p.base + r.offset) v

/-- R112: `write IN_BUF[k], v`. -/
def asmWriteInBuf (p : Params) (k : Nat) (v : HostVal) : HostOp :=
  .write .bits32 (p.base + inBufOffset + 4 * k) v

/-- R112: `read REG -> t`. -/
def asmRead (p : Params) (r : RegName) (t : Nat) : HostOp := .read .bits32 (p.base + r.offset) t

/-- R112: `read OUT_BUF[k] -> t`. -/
def asmReadOutBuf (p : Params) (k : Nat) (t : Nat) : HostOp :=
  .read .bits32 (p.base + outBufOffset + 4 * k) t

/-- R112: `cmd.raw imm32`, and with the word of a command its mnemonic. -/
def asmCmd (p : Params) (w : Word) : HostOp := asmWrite p .cmd (.imm w)

/-- R113: `wait`, placed at position `pos`: poll `STATUS` until bit 0 is 0. -/
def asmWait (p : Params) (pos t : Nat) : List HostOp := [asmRead p .status t, .bnz t 0x1 pos]

/-- R113: the four writes of a 16-byte value to the registers `reg 0..reg 3`. -/
def asmSetQuad (p : Params) (reg : Fin 4 → RegName) (h : Block) : List HostOp :=
  [asmWrite p (reg 0) (.imm h.toQuad.r0), asmWrite p (reg 1) (.imm h.toQuad.r1),
   asmWrite p (reg 2) (.imm h.toQuad.r2), asmWrite p (reg 3) (.imm h.toQuad.r3)]

/-- R113 `setbuf`: word `k` of a byte string, a byte beyond its end given as 0x00. -/
def packedWord (h : List Byte) (k : Nat) : Word := windowWord (fun i => h.getD i 0x00) k

/-- R112, R113: the operations of a line placed at position `pos`; `target` gives a label's position. -/
def expandLine (p : Params) (target : Nat → Nat) (pos : Nat) : AsmLine → List HostOp
  | .blank => []
  | .label _ => []
  | .write r v => [asmWrite p r v]
  | .writeInBuf k v => [asmWriteInBuf p k v]
  | .read r t => [asmRead p r t]
  | .readOutBuf k t => [asmReadOutBuf p k t]
  | .bnz t mask l => [.bnz t mask (target l)]
  | .command i => [asmCmd p (encode i)]
  | .cmdRaw w => [asmCmd p w]
  | .wait t => asmWait p pos t
  | .setkey h => asmWrite p .keyLen (.imm 16) :: asmSetQuad p .key h
  | .setiv h => asmWrite p .ivLen (.imm 16) :: asmSetQuad p .iv h
  | .setblk h => asmWrite p .blkLen (.imm 16) :: asmSetQuad p .blkIn h
  | .setbuf h =>
    asmWrite p .inLen (.imm (BitVec.ofNat 32 h.length)) ::
      (List.range ((h.length + 3) / 4)).map fun k => asmWriteInBuf p k (.imm (packedWord h k))
  | .getblk t0 t1 t2 t3 =>
    [asmRead p (.blkOut 0) t0, asmRead p (.blkOut 1) t1, asmRead p (.blkOut 2) t2,
     asmRead p (.blkOut 3) t3]
  | .getbuf n t => [asmRead p .outLen n, .readWords (p.base + outBufOffset) n t]
  | .docmd i t s => asmCmd p (encode i) :: (asmWait p (pos + 1) t ++ [asmRead p .status s])

/-- How many operations a line stands for; it does not depend on where labels lie. -/
def lineSize (p : Params) (line : AsmLine) : Nat := (expandLine p (fun _ => 0) 0 line).length

/-- The position of label `l` in a program placed at position `pos`. R112 leaves two cases open; DESIGN CHOICE
(log entry 13): of several lines that define the label the first counts, and a label that no line defines
is the end of the program. -/
def labelPosition (p : Params) (l : Nat) : Nat → List AsmLine → Nat
  | pos, [] => pos
  | pos, line :: rest =>
    if line = .label l then pos else labelPosition p l (pos + lineSize p line) rest

/-- The operations of the lines from position `pos` on. -/
def expandFrom (p : Params) (target : Nat → Nat) : Nat → List AsmLine → List HostOp
  | _, [] => []
  | pos, line :: rest =>
    expandLine p target pos line ++ expandFrom p target (pos + lineSize p line) rest

/-- R112: a host program assembled, its labels resolved. -/
def assemble (p : Params) (lines : List AsmLine) : List HostOp :=
  expandFrom p (fun l => labelPosition p l 0 lines) 0 lines

/-- R236: `aes128_init(key)`, polling through host variable `t` and leaving the status, which tells the error
of the call, in `s`. -/
def callInit (key : Block) (t s : Nat) : List AsmLine :=
  [.setkey key, .command .kexp, .wait t, .read .status s]

/-- R236: a buffer call: `setiv` for CBC, `setbuf`, the command, `wait`, the status into `s`, `getbuf`. -/
def callBuffer (i : Instr) (iv : Option Block) (input : List Byte) (t s n out : Nat) : List AsmLine :=
  (iv.map AsmLine.setiv).toList ++
    [.setbuf input, .command i, .wait t, .read .status s, .getbuf n out]

/-- R236: `aes128_encrypt(handle, mode, iv, plaintext)`; with an IV the mode is CBC, without one ECB. -/
def callEncrypt (iv : Option Block) (plaintext : List Byte) (t s n out : Nat) : List AsmLine :=
  callBuffer (if iv.isSome then .ebufCbc else .ebufEcb) iv plaintext t s n out

/-- R236: `aes128_decrypt(handle, mode, iv, ciphertext)`. -/
def callDecrypt (iv : Option Block) (ciphertext : List Byte) (t s n out : Nat) : List AsmLine :=
  callBuffer (if iv.isSome then .dbufCbc else .dbufEcb) iv ciphertext t s n out

/-- `s` with the host about to run a program from its first line. -/
def State.loadProgram (s : State) (lines : List AsmLine) : State :=
  { s with host := { prog := assemble s.params lines, pc := 0, vars := [], sweep := none } }

end Sys2Proof.Machine
end

