-- ==== Sys2Proof/Safety.lean ====
section
/-! DEFINITION. Safety.lean: what counts as a good state and a safe run, in the terms the statements use: the
invariant every step keeps, host programs whose every access has a meaning, and the end of a run. -/

namespace Sys2Proof.Machine

/-- R46: with `KEY_VALID = 1` the schedule is the expansion of some key, with `KEY_VALID = 0` every byte of
it is 0x00. -/
def Engine.scheduleOk (e : Engine) : Prop :=
  (e.keyValid = true → ∃ k : Block, e.rk = expand k) ∧ (e.keyValid = false → e.rk = Schedule.zero)

/-- The status values of spec/95_test_vectors.md section 1 that are "never": `InvalidKeyLength` comes only
without a loaded key, and codes 2, 3, 4, 5 and 7 only with one (R272). -/
def Engine.statusOk (e : Engine) : Prop :=
  (e.errCode = .invalidKeyLength → e.keyValid = false) ∧
  (e.errCode = .invalidIVLength ∨ e.errCode = .invalidBlockLength ∨ e.errCode = .unsupportedMode ∨
    e.errCode = .paddingError ∨ e.errCode = .lengthOverflow → e.keyValid = true)

/-- R42, R44, R227: the output a host is told of, `OutBuf[0 .. OUT_LEN)`, fits the window, and every byte of
it was written since reset. -/
def Engine.outputOk (e : Engine) (p : Params) : Prop :=
  e.outLen.toNat ≤ p.bufBytes ∧ ∀ i < e.outLen.toNat, (Sparse.read e.outBuf i).isSome = true

/-- The invariant of the machine. -/
structure State.Inv (s : State) : Prop where
  /-- R10. -/
  params : s.params.wf = true
  /-- R46. -/
  schedule : s.engine.scheduleOk
  /-- R272 with R140, R273. -/
  status : s.engine.statusOk
  /-- R227, R228. -/
  output : s.engine.outputOk s.params
  /-- The canonical form of the window memories, inside the windows (R43, R44). -/
  inBufWf : Memory.wf s.engine.inBuf
  inBufBelow : Sparse.below s.engine.inBuf s.params.bufBytes
  outBufWf : Memory.wf s.engine.outBuf
  outBufBelow : Sparse.below s.engine.outBuf s.params.bufBytes
  /-- The canonical form of the host's variables. -/
  varsWf : Sparse.wf s.host.vars
  /-- The model's own count of host steps belongs to a command in progress. -/
  delayIdle : s.engine.busy = false → s.delay = 0

/-- R64: the access the operation makes in this state, if it makes one, has a meaning. -/
def State.accessOk (s : State) : HostOp → Bool
  | .write width addr _ => accessWf s.params width addr
  | .read width addr _ => accessWf s.params width addr
  | .readWords addr n _ =>
    let w := s.sweepAt n
    !(w.next < w.total) || accessWf s.params .bits32 (addr + 4 * w.next)
  | .bnz _ _ _ => true
  | .reset => true

/-- U2: the access the host makes next, if it makes one, has a meaning (R64). -/
def State.nextAccessOk (s : State) : Prop := ∀ op, s.nextOp = some op → s.accessOk op = true

/-- U2: every access the host program can make, whatever its variables hold, has a meaning (R64). -/
def State.hostAccessesWf (s : State) : Prop := ∀ op ∈ s.host.prog, HostOp.wf s.params op = true

/-- No reset event stands in what the platform and the host will do. -/
def State.noReset (s : State) : Prop := HostOp.reset ∉ s.host.prog

/-- `k` steps of the machine, stopping at the first refusal: a run, R75's interleaving. -/
def runSteps : Nat → State → Host.Outcome State Fault Refusal
  | 0, s => .next s
  | k + 1, s =>
    match step s with
    | .next t => runSteps k t
    | .fault r => .fault r
    | .refused r => .refused r

/-- R317: a run has ended: the host has performed its last access and no command is in progress. -/
def State.ended (s : State) : Prop := s.nextOp = none ∧ s.engine.busy = false

end Sys2Proof.Machine
end

