-- ==== Sys2Proof/Certificates/Slice0/Obligations.lean ====
section
/-! DEFINITION. Certificates/Slice0/Obligations.lean: the statements for the provers. A statement about a free value
(`Config.drawWord`, `Config.unwrittenByte`, `Config.engineDelay`, `Config.hostVariable`) holds whatever
the value is. The field `delay` of State, and what it stands for, is the model's choice (log entry 6). -/

namespace Sys2Proof.Machine

/-! Terms the statements below share. -/

/-- R63, R18: four bytes as a word, by shifts. -/
def shiftedWord (b0 b1 b2 b3 : Byte) : Word :=
  (b0.zeroExtend 32 <<< 24) ||| (b1.zeroExtend 32 <<< 16) ||| (b2.zeroExtend 32 <<< 8) |||
    b3.zeroExtend 32

/-- R222: block `i` of a byte string, `D[16i .. 16i+16)`. -/
def blockAt (d : List Byte) (i : Nat) : Block :=
  let b := fun j => d.getD (16 * i + j) 0
  ⟨⟨b 0, b 1, b 2, b 3⟩, ⟨b 4, b 5, b 6, b 7⟩, ⟨b 8, b 9, b 10, b 11⟩, ⟨b 12, b 13, b 14, b 15⟩⟩

/-- `s` after a command that only wrote the status. -/
def withStatus (s : State) (c : Code) : State :=
  { s with engine := { s.engine with errCode := c, busy := false } }

/-- `s` after a buffer command that failed with `c` (R274). -/
def bufferFailed (s : State) (c : Code) : State :=
  { s with engine := { s.engine with outLen := 0, errCode := c, busy := false } }

/-- `t` is `s` after a buffer command that completed OK with result `r` (R227): `OutBuf[0 .. n)` holds `r`,
every other byte of `OutBuf` reads as before, `OUT_LEN` is `n`, the status is OK, and nothing else has
changed. -/
def BufferDone (s t : State) (r : List Byte) : Prop :=
  t = { s with engine := { s.engine with
          outBuf := t.engine.outBuf, outLen := BitVec.ofNat 32 r.length, errCode := .ok, busy := false } } ∧
  (∀ i < r.length, some (t.outByte i) = r[i]?) ∧ ∀ i, r.length ≤ i → t.outByte i = s.outByte i

/-- R230 to R233: the result a buffer command commits, if its checks pass: the transformed padded input, or
the transformed input without its padding. -/
def bufferResult (s : State) : Instr → Option (List Byte)
  | .ebufEcb => some (ecbEnc (pad s.input) s.engine.rk)
  | .ebufCbc => some (cbcEnc (pad s.input) s.engine.rk s.engine.iv.toBlock)
  | .dbufEcb => unpad (ecbDec s.input s.engine.rk)
  | .dbufCbc => unpad (cbcDec s.input s.engine.rk s.engine.iv.toBlock)
  | .nop => none
  | .kexp => none
  | .kclr => none
  | .eblk => none
  | .dblk => none

/-- The status code a decoded word completes with. -/
def statusAfter (d : Decoded) (s : State) : Option Code :=
  match perform d s with
  | .next t => some t.engine.errCode
  | .fault _ => none
  | .refused _ => none

/-- The buffer commands, the `*_BADMODE` values among them (R274). -/
def isBuffer (d : Decoded) : Bool :=
  d == .command .ebufEcb || d == .command .ebufCbc || d == .command .dbufEcb ||
    d == .command .dbufCbc || d == .ebufBadMode || d == .dbufBadMode

end Sys2Proof.Machine

open Sys2Proof Sys2Proof.Machine

/-! ### Encoding and decode -/

/-- R114, the four examples, with their fields. -/
def Obligations.EncodingExamplesDecodeAsTheSpecSays : Prop :=
  (opField 0x00000015 = 0x5 ∧ modeField 0x00000015 = 0x1 ∧ rsvField 0x00000015 = 0 ∧
    decode 0x00000015 = .command .ebufCbc) ∧
  (opField 0x00000025 = 0x5 ∧ modeField 0x00000025 = 0x2 ∧ decode 0x00000025 = .ebufBadMode) ∧
  (rsvField 0x00000105 = 0x000001 ∧ decode 0x00000105 = .illegal) ∧
  (opField 0x00000011 = 0x1 ∧ modeField 0x00000011 = 0x1 ∧ decode 0x00000011 = .illegal)

/-- R104: each command is one exact word: the nine words, and over all 2^32 words, a word decodes to a command
exactly when it is that command's word. -/
def Obligations.DecodeAndEncodeAgreeOnEveryWord : Prop :=
  (encode .nop = 0x00000000 ∧ encode .kexp = 0x00000001 ∧ encode .kclr = 0x00000002 ∧
    encode .eblk = 0x00000003 ∧ encode .dblk = 0x00000004 ∧ encode .ebufEcb = 0x00000005 ∧
    encode .ebufCbc = 0x00000015 ∧ encode .dbufEcb = 0x00000006 ∧ encode .dbufCbc = 0x00000016) ∧
  ∀ (w : Word) (i : Instr), decode w = .command i ↔ w = encode i

/-- R105: which words are illegal, that every such word is accepted, and that it completes with
`IllegalCommand`, changing nothing but the status. -/
def Obligations.IllegalWordsAreAcceptedAndReported : Prop :=
  ∀ w : Word,
    (decode w = .illegal ↔
      w.toNat / 256 ≠ 0 ∨ 7 ≤ w.toNat % 16 ∨ (w.toNat % 16 ≤ 4 ∧ w.toNat / 16 % 16 ≠ 0)) ∧
    (∀ s : State, s.engine.busy = false →
      (s.hostWrite 0x00004 w).engine = { s.engine with cmd := w, busy := true }) ∧
    ∀ s : State, perform .illegal s = .next (withStatus s .illegalCommand)

/-- R106: which words are `EBUF_BADMODE` and `DBUF_BADMODE`, and what they complete with. -/
def Obligations.BadModeWordsReportKeyThenMode : Prop :=
  (∀ w : Word, decode w = .ebufBadMode ↔
    w.toNat / 256 = 0 ∧ w.toNat % 16 = 0x5 ∧ 2 ≤ w.toNat / 16 % 16) ∧
  (∀ w : Word, decode w = .dbufBadMode ↔
    w.toNat / 256 = 0 ∧ w.toNat % 16 = 0x6 ∧ 2 ≤ w.toNat / 16 % 16) ∧
  ∀ (d : Decoded) (s : State), d = .ebufBadMode ∨ d = .dbufBadMode →
    perform d s =
      .next (bufferFailed s (if s.engine.keyValid = true then .unsupportedMode else .invalidKeyLength))

/-! ### The step -/

/-- R110: a step runs the decoded command: with `BUSY = 1` and no host step to come first (`delay = 0`, the
model's form of the interleaving, log entry 6), the step is the meaning of the word latched in `CMD`,
and nothing is added around it. -/
def Obligations.StepPerformsTheLatchedCommand : Prop :=
  ∀ s : State, s.engine.busy = true → s.delay = 0 →
    (∀ i : Instr, decode s.engine.cmd = .command i → step s = exec i s) ∧
    (decode s.engine.cmd = .ebufBadMode → step s = execEbufBadMode s) ∧
    (decode s.engine.cmd = .dbufBadMode → step s = execDbufBadMode s) ∧
    (decode s.engine.cmd = .illegal → step s = execIllegal s)

/-- R110, R275: whatever word is latched, the engine step completes: it clears `BUSY`, and changes nothing
outside the engine. -/
def Obligations.EveryEngineStepClearsBusyAndStaysInTheEngine : Prop :=
  ∀ s : State, s.engine.busy = true → s.delay = 0 →
    ∃ t, step s = .next t ∧ t.engine.busy = false ∧ t = { s with engine := t.engine }

/-- R110: `perform` is total and always ends by writing a status code and clearing `BUSY`: no decoded word
stops on any state. -/
def Obligations.EveryDecodedWordCompletesOnEveryState : Prop :=
  ∀ (d : Decoded) (s : State), ∃ t, perform d s = .next t ∧ t.engine.busy = false ∧
    t.engine.cmd = s.engine.cmd ∧ t.params = s.params ∧ t.host = s.host

/-! ### The commands -/

/-- R260 `NOP`. -/
def Obligations.NopOnlyClearsTheStatus : Prop :=
  (∀ s : State, exec .nop s = .next (withStatus s .ok)) ∧
  decode 0x00000000 = .command .nop ∧
  (∀ w : Word, w.toNat % 16 = 0x0 → w ≠ 0x00000000 → decode w = .illegal) ∧
  ∀ p : Params, (State.resetWith p).engine.cmd = 0x00000000

/-- R140 `KEXP`: both outcomes, whole. -/
def Obligations.KexpExpandsTheKeyOrDestroysTheSchedule : Prop :=
  decode 0x00000001 = .command .kexp ∧
  ∀ s : State,
    (s.engine.keyLen = 16 → exec .kexp s = .next { s with engine := { s.engine with
      rk := expand s.engine.key.toBlock, keyValid := true, errCode := .ok, busy := false } }) ∧
    (s.engine.keyLen ≠ 16 → exec .kexp s = .next { s with engine := { s.engine with
      rk := Schedule.zero, keyValid := false, errCode := .invalidKeyLength, busy := false } })

/-- R141 `KCLR`. -/
def Obligations.KclrReleasesTheSchedule : Prop :=
  decode 0x00000002 = .command .kclr ∧
  ∀ s : State, exec .kclr s = .next { s with engine := { s.engine with
    rk := Schedule.zero, keyValid := false, errCode := .ok, busy := false } }

/-- R190 `EBLK`: the three outcomes in their precedence, whole. -/
def Obligations.EblkEncryptsTheInputBlock : Prop :=
  decode 0x00000003 = .command .eblk ∧
  ∀ s : State,
    (s.engine.keyValid = false → exec .eblk s = .next (withStatus s .invalidKeyLength)) ∧
    (s.engine.keyValid = true → s.engine.blkLen ≠ 16 →
      exec .eblk s = .next (withStatus s .invalidBlockLength)) ∧
    (s.engine.keyValid = true → s.engine.blkLen = 16 →
      exec .eblk s = .next { s with engine := { s.engine with
        blkOut := (cipher s.engine.blkIn.toBlock s.engine.rk).toQuad, errCode := .ok, busy := false } })

/-- R191 `DBLK`: the three outcomes in their precedence, whole. -/
def Obligations.DblkDecryptsTheInputBlock : Prop :=
  decode 0x00000004 = .command .dblk ∧
  ∀ s : State,
    (s.engine.keyValid = false → exec .dblk s = .next (withStatus s .invalidKeyLength)) ∧
    (s.engine.keyValid = true → s.engine.blkLen ≠ 16 →
      exec .dblk s = .next (withStatus s .invalidBlockLength)) ∧
    (s.engine.keyValid = true → s.engine.blkLen = 16 →
      exec .dblk s = .next { s with engine := { s.engine with
        blkOut := (invCipher s.engine.blkIn.toBlock s.engine.rk).toQuad, errCode := .ok,
        busy := false } })

/-- R230 `EBUF.ECB`: every outcome in its precedence, with all of memory. -/
def Obligations.EbufEcbEncryptsThePaddedBuffer : Prop :=
  decode 0x00000005 = .command .ebufEcb ∧
  ∀ s : State,
    (s.engine.keyValid = false → exec .ebufEcb s = .next (bufferFailed s .invalidKeyLength)) ∧
    (s.engine.keyValid = true → s.params.bufBytes ≤ s.engine.inLen.toNat →
      exec .ebufEcb s = .next (bufferFailed s .lengthOverflow)) ∧
    (s.engine.keyValid = true → s.engine.inLen.toNat < s.params.bufBytes →
      ∃ t, exec .ebufEcb s = .next t ∧ BufferDone s t (ecbEnc (pad s.input) s.engine.rk))

/-- R231 `EBUF.CBC`: every outcome in its precedence, with all of memory. -/
def Obligations.EbufCbcEncryptsThePaddedBuffer : Prop :=
  decode 0x00000015 = .command .ebufCbc ∧
  ∀ s : State,
    (s.engine.keyValid = false → exec .ebufCbc s = .next (bufferFailed s .invalidKeyLength)) ∧
    (s.engine.keyValid = true → s.engine.ivLen ≠ 16 →
      exec .ebufCbc s = .next (bufferFailed s .invalidIVLength)) ∧
    (s.engine.keyValid = true → s.engine.ivLen = 16 → s.params.bufBytes ≤ s.engine.inLen.toNat →
      exec .ebufCbc s = .next (bufferFailed s .lengthOverflow)) ∧
    (s.engine.keyValid = true → s.engine.ivLen = 16 → s.engine.inLen.toNat < s.params.bufBytes →
      ∃ t, exec .ebufCbc s = .next t ∧
        BufferDone s t (cbcEnc (pad s.input) s.engine.rk s.engine.iv.toBlock))

/-- R232 `DBUF.ECB`: every outcome in its precedence, with all of memory. -/
def Obligations.DbufEcbDecryptsAndStripsThePadding : Prop :=
  decode 0x00000006 = .command .dbufEcb ∧
  ∀ s : State,
    let len := s.engine.inLen.toNat
    (s.engine.keyValid = false → exec .dbufEcb s = .next (bufferFailed s .invalidKeyLength)) ∧
    (s.engine.keyValid = true → s.params.bufBytes < len →
      exec .dbufEcb s = .next (bufferFailed s .lengthOverflow)) ∧
    (s.engine.keyValid = true → len ≤ s.params.bufBytes → len = 0 ∨ len % 16 ≠ 0 →
      exec .dbufEcb s = .next (bufferFailed s .invalidBlockLength)) ∧
    (s.engine.keyValid = true → len ≤ s.params.bufBytes → len ≠ 0 → len % 16 = 0 →
      (unpad (ecbDec s.input s.engine.rk) = none →
        exec .dbufEcb s = .next (bufferFailed s .paddingError)) ∧
      ∀ r, unpad (ecbDec s.input s.engine.rk) = some r →
        ∃ t, exec .dbufEcb s = .next t ∧ BufferDone s t r)

/-- R233 `DBUF.CBC`: every outcome in its precedence, with all of memory. -/
def Obligations.DbufCbcDecryptsAndStripsThePadding : Prop :=
  decode 0x00000016 = .command .dbufCbc ∧
  ∀ s : State,
    let len := s.engine.inLen.toNat
    (s.engine.keyValid = false → exec .dbufCbc s = .next (bufferFailed s .invalidKeyLength)) ∧
    (s.engine.keyValid = true → s.engine.ivLen ≠ 16 →
      exec .dbufCbc s = .next (bufferFailed s .invalidIVLength)) ∧
    (s.engine.keyValid = true → s.engine.ivLen = 16 → s.params.bufBytes < len →
      exec .dbufCbc s = .next (bufferFailed s .lengthOverflow)) ∧
    (s.engine.keyValid = true → s.engine.ivLen = 16 → len ≤ s.params.bufBytes →
      len = 0 ∨ len % 16 ≠ 0 → exec .dbufCbc s = .next (bufferFailed s .invalidBlockLength)) ∧
    (s.engine.keyValid = true → s.engine.ivLen = 16 → len ≤ s.params.bufBytes → len ≠ 0 →
      len % 16 = 0 →
      (unpad (cbcDec s.input s.engine.rk s.engine.iv.toBlock) = none →
        exec .dbufCbc s = .next (bufferFailed s .paddingError)) ∧
      ∀ r, unpad (cbcDec s.input s.engine.rk s.engine.iv.toBlock) = some r →
        ∃ t, exec .dbufCbc s = .next t ∧ BufferDone s t r)

/-! ### Frames, errors and precedence -/

/-- R108, with R35, R36, R39, R41, R43: no command, whatever its outcome, writes an operand: `CMD`, `KEY*`,
`IV*`, `BLK_IN*`, the lengths the host declares, any byte of `InBuf`, or anything outside the engine. -/
def Obligations.NoCommandWritesItsOperands : Prop :=
  ∀ (d : Decoded) (s t : State), perform d s = .next t →
    t.params = s.params ∧ t.host = s.host ∧ t.delay = s.delay ∧ t.draws = s.draws ∧
    t.resets = s.resets ∧ t.engine.cmd = s.engine.cmd ∧ t.engine.keyLen = s.engine.keyLen ∧
    t.engine.key = s.engine.key ∧ t.engine.ivLen = s.engine.ivLen ∧ t.engine.iv = s.engine.iv ∧
    t.engine.blkLen = s.engine.blkLen ∧ t.engine.blkIn = s.engine.blkIn ∧
    t.engine.inLen = s.engine.inLen ∧ ∀ a, t.inByte a = s.inByte a

/-- R108, the column of what each command writes: the schedule and `KEY_VALID` only by `KEXP` and `KCLR`,
`BLK_OUT` only by `EBLK` and `DBLK`, `OUT_LEN` and `OutBuf` only by the buffer commands. -/
def Obligations.EachCommandWritesOnlyItsOwnResults : Prop :=
  ∀ (d : Decoded) (s t : State), perform d s = .next t →
    (d ≠ .command .kexp → d ≠ .command .kclr →
      t.engine.rk = s.engine.rk ∧ t.engine.keyValid = s.engine.keyValid) ∧
    (d ≠ .command .eblk → d ≠ .command .dblk → t.engine.blkOut = s.engine.blkOut) ∧
    (isBuffer d = false → t.engine.outLen = s.engine.outLen ∧ ∀ a, t.outByte a = s.outByte a)

/-- R274: a command that completes with a code other than `OK` changes exactly what the table says. -/
def Obligations.AFailingCommandChangesExactlyItsRow : Prop :=
  ∀ (d : Decoded) (s t : State), perform d s = .next t → t.engine.errCode ≠ .ok →
    t = { s with engine := { s.engine with
      errCode := t.engine.errCode, busy := false
      rk := if d = .command .kexp then Schedule.zero else s.engine.rk
      keyValid := if d = .command .kexp then false else s.engine.keyValid
      outLen := if isBuffer d = true then 0 else s.engine.outLen } }

/-- R272: the status of every command as a function of the state before it: the first condition that holds,
in the order of the table. -/
def Obligations.StatusFollowsThePrecedence : Prop :=
  ∀ s : State,
    let e := s.engine
    let len := e.inLen.toNat
    let buf := s.params.bufBytes
    statusAfter .illegal s = some .illegalCommand ∧
    statusAfter (.command .nop) s = some .ok ∧
    statusAfter (.command .kclr) s = some .ok ∧
    statusAfter (.command .kexp) s = some (if e.keyLen ≠ 16 then .invalidKeyLength else .ok) ∧
    (∀ i, i = .eblk ∨ i = .dblk → statusAfter (.command i) s = some
      (if e.keyValid = false then .invalidKeyLength
       else if e.blkLen ≠ 16 then .invalidBlockLength else .ok)) ∧
    (∀ d, d = .ebufBadMode ∨ d = .dbufBadMode → statusAfter d s = some
      (if e.keyValid = false then .invalidKeyLength else .unsupportedMode)) ∧
    statusAfter (.command .ebufEcb) s = some
      (if e.keyValid = false then .invalidKeyLength
       else if buf ≤ len then .lengthOverflow else .ok) ∧
    statusAfter (.command .ebufCbc) s = some
      (if e.keyValid = false then .invalidKeyLength
       else if e.ivLen ≠ 16 then .invalidIVLength
       else if buf ≤ len then .lengthOverflow else .ok) ∧
    statusAfter (.command .dbufEcb) s = some
      (if e.keyValid = false then .invalidKeyLength
       else if buf < len then .lengthOverflow
       else if len = 0 ∨ len % 16 ≠ 0 then .invalidBlockLength
       else if unpad (ecbDec s.input e.rk) = none then .paddingError else .ok) ∧
    statusAfter (.command .dbufCbc) s = some
      (if e.keyValid = false then .invalidKeyLength
       else if e.ivLen ≠ 16 then .invalidIVLength
       else if buf < len then .lengthOverflow
       else if len = 0 ∨ len % 16 ≠ 0 then .invalidBlockLength
       else if unpad (cbcDec s.input e.rk e.iv.toBlock) = none then .paddingError else .ok)

/-- R273: without a loaded schedule (after reset, after `KCLR`, after a failed `KEXP`) every block and buffer
command fails with `InvalidKeyLength`, the `*_BADMODE` values among them. -/
def Obligations.WithoutAScheduleBlockAndBufferCommandsFail : Prop :=
  (∀ (s : State) (d : Decoded), s.engine.keyValid = false →
    d ≠ .command .nop → d ≠ .command .kexp → d ≠ .command .kclr → d ≠ .illegal →
    ∃ t, perform d s = .next t ∧ t.engine.errCode = .invalidKeyLength) ∧
  (∀ p : Params, (State.resetWith p).engine.keyValid = false) ∧
  (∀ s t : State, exec .kclr s = .next t → t.engine.keyValid = false) ∧
  (∀ s t : State, exec .kexp s = .next t → t.engine.errCode ≠ .ok → t.engine.keyValid = false)

/-- R227: a buffer command commits its whole result or nothing: after any of the four, either the status is OK,
`OutBuf[0 .. OUT_LEN)` is the result of the command, every other byte of `OutBuf` reads as before and
nothing else has changed, or the status is an error, `OUT_LEN` is 0 and every byte of `OutBuf` reads as
before; and the `*_BADMODE` values always end the second way. -/
def Obligations.BufferCommandsCommitAllOrNothing : Prop :=
  (∀ (s t : State) (i : Instr), s.params.wf = true → isBuffer (.command i) = true →
    exec i s = .next t →
    (t.engine.errCode = .ok ∧ ∃ r : List Byte, bufferResult s i = some r ∧
      t.engine.outLen.toNat = r.length ∧ BufferDone s t r) ∨
    (t.engine.errCode ≠ .ok ∧ t.engine.outLen = 0 ∧ ∀ a, t.outByte a = s.outByte a)) ∧
  ∀ (s t : State) (d : Decoded), d = .ebufBadMode ∨ d = .dbufBadMode → perform d s = .next t →
    t.engine.errCode ≠ .ok ∧ t.engine.outLen = 0 ∧ ∀ a, t.outByte a = s.outByte a

/-- R228: the output length of a buffer command that completes OK. -/
def Obligations.OutputLengthsOfTheBufferCommands : Prop :=
  ∀ (s t : State) (i : Instr), s.params.wf = true → exec i s = .next t → t.engine.errCode = .ok →
    let len := s.engine.inLen.toNat
    let n := t.engine.outLen.toNat
    (i = .ebufEcb ∨ i = .ebufCbc →
      n = len + padLength len ∧ n = 16 * (len / 16 + 1) ∧ 16 ≤ n ∧ n ≤ s.params.bufBytes) ∧
    (i = .dbufEcb → ∃ p, n + p = len ∧ len % 16 = 0 ∧ 1 ≤ p ∧ p ≤ 16 ∧
      (ecbDec s.input s.engine.rk).getLast? = some (BitVec.ofNat 8 p)) ∧
    (i = .dbufCbc → ∃ p, n + p = len ∧ len % 16 = 0 ∧ 1 ≤ p ∧ p ≤ 16 ∧
      (cbcDec s.input s.engine.rk s.engine.iv.toBlock).getLast? = some (BitVec.ofNat 8 p))

/-! ### The status register -/

/-- R270 (the numbers), R271, R33 (the layout): the numbers of the codes, all below 8, and `STATUS` as a sum
of its fields, so that every reserved bit reads 0. -/
def Obligations.StatusWordLayoutAndCodeNumbers : Prop :=
  (Code.ok.number = 0 ∧ Code.invalidKeyLength.number = 1 ∧ Code.invalidIVLength.number = 2 ∧
    Code.invalidBlockLength.number = 3 ∧ Code.unsupportedMode.number = 4 ∧
    Code.paddingError.number = 5 ∧ Code.illegalCommand.number = 6 ∧
    Code.lengthOverflow.number = 7) ∧
  ∀ e : Engine, e.errCode.number.toNat < 8 ∧
    e.statusWord.toNat = e.errCode.number.toNat * 16 + (if e.keyValid = true then 2 else 0) +
      (if e.busy = true then 1 else 0)

/-- R33, the last paragraph: who writes `BUSY`, `ERRCODE` and `KEY_VALID`, over every step of the machine. -/
def Obligations.OnlyTheNamedEventsWriteTheStatus : Prop :=
  ∀ s t : State, step s = .next t →
    let engineStep := s.engine.busy = true ∧ s.delay = 0
    let resets := ¬engineStep ∧ s.nextOp = some .reset
    (s.engine.busy = false → t.engine.busy = true →
      ∃ v, s.nextOp = some (.write .bits32 (s.params.base + 0x00004) v) ∧
        t.engine = { s.engine with cmd := s.hostVal v, busy := true }) ∧
    (s.engine.busy = true → t.engine.busy = false → engineStep ∨ resets) ∧
    (t.engine.errCode ≠ s.engine.errCode → engineStep ∨ resets) ∧
    (t.engine.keyValid ≠ s.engine.keyValid →
      (engineStep ∧
        (decode s.engine.cmd = .command .kexp ∨ decode s.engine.cmd = .command .kclr)) ∨ resets)

/-- R45, R46, R142: the key schedule is immutable between `KEXP`, `KCLR` and reset: no other step changes
it. -/
def Obligations.OnlyKexpKclrAndResetChangeTheSchedule : Prop :=
  ∀ s t : State, step s = .next t → t.engine.rk ≠ s.engine.rk →
    (s.engine.busy = true ∧ s.delay = 0 ∧
      (decode s.engine.cmd = .command .kexp ∨ decode s.engine.cmd = .command .kclr)) ∨
    (¬(s.engine.busy = true ∧ s.delay = 0) ∧ s.nextOp = some .reset)

/-- R43: a byte of `InBuf` changes only by an accepted host write to its word, or by reset, which draws it
anew. In particular a byte nothing has written keeps the value drawn for it. -/
def Obligations.OnlyHostWritesAndResetChangeInBuf : Prop :=
  ∀ (s t : State) (i : Nat), s.params.wf = true → step s = .next t → t.inByte i ≠ s.inByte i →
    ¬(s.engine.busy = true ∧ s.delay = 0) ∧
    (s.nextOp = some .reset ∨
     (s.engine.busy = false ∧ i < s.params.bufBytes ∧
      ∃ v, s.nextOp = some (.write .bits32 (s.params.base + 0x10000 + 4 * (i / 4)) v)))

/-- R44: a byte of `OutBuf` changes only by a buffer command that completes OK, which writes only bytes below
the new `OUT_LEN`, or by reset. -/
def Obligations.OnlyBufferCommandsAndResetChangeOutBuf : Prop :=
  ∀ (s t : State) (i : Nat), s.params.wf = true → step s = .next t → t.outByte i ≠ s.outByte i →
    (s.engine.busy = true ∧ s.delay = 0 ∧ isBuffer (decode s.engine.cmd) = true ∧
      t.engine.errCode = .ok ∧ i < t.engine.outLen.toNat) ∨
    (¬(s.engine.busy = true ∧ s.delay = 0) ∧ s.nextOp = some .reset)

/-! ### Host access -/

/-- R65: what `HostRead` returns at every offset of the region, `none` standing for `draw32`; and that a read
leaves the engine as it is and gives the host that value, or a freely drawn one. -/
def Obligations.HostReadReturnsTheRegisterMap : Prop :=
  ∀ s : State, s.params.wf = true →
    let e := s.engine
    let buf := s.params.bufBytes
    s.hostRead 0x00000 = some 0x41455331 ∧
    s.hostRead 0x00004 = some e.cmd ∧
    s.hostRead 0x00008 = some (BitVec.ofNat 32 (e.errCode.number.toNat * 16 +
      (if e.keyValid = true then 2 else 0) + (if e.busy = true then 1 else 0))) ∧
    s.hostRead 0x0000C = some e.keyLen ∧
    (∀ j : Fin 4, s.hostRead (0x00010 + 4 * j.val) = some 0x00000000) ∧
    s.hostRead 0x00020 = some e.ivLen ∧
    (∀ j : Fin 4, s.hostRead (0x00024 + 4 * j.val) = some (e.iv.get j)) ∧
    s.hostRead 0x00034 = some e.blkLen ∧
    (∀ j : Fin 4, s.hostRead (0x00038 + 4 * j.val) = some (e.blkIn.get j)) ∧
    (∀ j : Fin 4, s.hostRead (0x00048 + 4 * j.val) =
      if e.busy = true then none else some (e.blkOut.get j)) ∧
    s.hostRead 0x00058 = some e.inLen ∧
    s.hostRead 0x0005C = (if e.busy = true then none else some e.outLen) ∧
    (∀ k < buf / 4, s.hostRead (0x10000 + 4 * k) = some (shiftedWord (s.inByte (4 * k))
      (s.inByte (4 * k + 1)) (s.inByte (4 * k + 2)) (s.inByte (4 * k + 3)))) ∧
    (∀ k < buf / 4, s.hostRead (0x20000 + 4 * k) = if e.busy = true then none else
      some (shiftedWord (s.outByte (4 * k)) (s.outByte (4 * k + 1)) (s.outByte (4 * k + 2))
        (s.outByte (4 * k + 3)))) ∧
    (∀ off < 0x30000, off % 4 = 0 → 0x00060 ≤ off → ¬(0x10000 ≤ off ∧ off < 0x10000 + buf) →
      ¬(0x20000 ≤ off ∧ off < 0x20000 + buf) → s.hostRead off = some 0x00000000) ∧
    ∀ off x, (s.readInto off x).engine = e ∧
      (s.readInto off x).hostVar x = (s.hostRead off).getD (Config.drawWord s.draws)

/-- R68 (reads), R69: a read access of the host changes only the variable it reads into, the host's place in its
program, and the model's count of drawn values. -/
def Obligations.AReadAccessHasNoSideEffect : Prop :=
  ∀ (s : State) (off x : Nat), off < 0x30000 → off % 4 = 0 →
    ∃ t, hostOp (.read .bits32 (s.params.base + off) x) s = .next t ∧
      t = { s with host := { s.host with pc := s.host.pc + 1, vars := t.host.vars }
                   draws := t.draws } ∧
      (∀ y, y ≠ x → t.hostVar y = s.hostVar y) ∧
      ∀ off', t.hostRead off' = s.hostRead off'

/-- R66: what `HostWrite` does at every offset of the region; and what writing one register of a group of four
is: that register takes the value, the other three keep theirs. -/
def Obligations.HostWriteWritesTheRegisterMap : Prop :=
  (∀ (q : Quad) (v : Word) (i j : Fin 4), (q.set v j).get i = if i = j then v else q.get i) ∧
  (∀ q : Quad, q.get 0 = q.r0 ∧ q.get 1 = q.r1 ∧ q.get 2 = q.r2 ∧ q.get 3 = q.r3) ∧
  ∀ (s : State) (v : Word), s.params.wf = true →
    let e := s.engine
    let buf := s.params.bufBytes
    (e.busy = true → ∀ off, s.hostWrite off v = s) ∧
    (e.busy = false →
      (s.hostWrite 0x00004 v).engine = { e with cmd := v, busy := true } ∧
      s.hostWrite 0x0000C v = { s with engine := { e with keyLen := v } } ∧
      (∀ j : Fin 4,
        s.hostWrite (0x00010 + 4 * j.val) v = { s with engine := { e with key := e.key.set v j } }) ∧
      s.hostWrite 0x00020 v = { s with engine := { e with ivLen := v } } ∧
      (∀ j : Fin 4,
        s.hostWrite (0x00024 + 4 * j.val) v = { s with engine := { e with iv := e.iv.set v j } }) ∧
      s.hostWrite 0x00034 v = { s with engine := { e with blkLen := v } } ∧
      (∀ j : Fin 4,
        s.hostWrite (0x00038 + 4 * j.val) v = { s with engine := { e with blkIn := e.blkIn.set v j } }) ∧
      s.hostWrite 0x00058 v = { s with engine := { e with inLen := v } } ∧
      (∀ k < buf / 4, ∃ t, s.hostWrite (0x10000 + 4 * k) v = t ∧
        t = { s with engine := { e with inBuf := t.engine.inBuf } } ∧
        t.inByte (4 * k) = v.extractLsb' 24 8 ∧ t.inByte (4 * k + 1) = v.extractLsb' 16 8 ∧
        t.inByte (4 * k + 2) = v.extractLsb' 8 8 ∧ t.inByte (4 * k + 3) = v.extractLsb' 0 8 ∧
        ∀ i, i < 4 * k ∨ 4 * k + 4 ≤ i → t.inByte i = s.inByte i) ∧
      (∀ off < 0x30000, off % 4 = 0 →
        off = 0x00000 ∨ off = 0x00008 ∨ (0x00048 ≤ off ∧ off ≤ 0x00054) ∨ off = 0x0005C ∨
          (0x00060 ≤ off ∧ ¬(0x10000 ≤ off ∧ off < 0x10000 + buf)) →
        s.hostWrite off v = s))

/-- R67: an accepted write to `CMD` latches the word and sets `BUSY`, and changes nothing else of the engine;
while a command is in progress the write is dropped. -/
def Obligations.CommandIssueLatchesTheWordOnce : Prop :=
  ∀ (s : State) (w : Word), ∃ t,
    hostOp (.write .bits32 (s.params.base + 0x00004) (.imm w)) s = .next t ∧
    (s.engine.busy = false → t.engine = { s.engine with cmd := w, busy := true }) ∧
    (s.engine.busy = true → t.engine = s.engine)

/-- R66, R67, R310(a): while a command is in progress, no host access, read or write, and no branch changes
anything of the engine. -/
def Obligations.NoHostAccessReachesACommandInProgress : Prop :=
  ∀ (op : HostOp) (s t : State), s.engine.busy = true → op ≠ .reset → hostOp op s = .next t →
    t.engine = s.engine ∧ t.delay = s.delay ∧ t.resets = s.resets ∧ t.params = s.params

/-- R64: an access has a step exactly when it lies in the region, is 32 bits wide and is aligned; any other is
refused, read or write. -/
def Obligations.AccessesWithoutAMeaningAreRefused : Prop :=
  ∀ (s : State) (width : AccessWidth) (addr x : Nat) (v : HostVal),
    let meant := s.params.base ≤ addr ∧ addr < s.params.base + 0x30000 ∧ width = .bits32 ∧
      (addr - s.params.base) % 4 = 0
    (meant → (∃ t, hostOp (.write width addr v) s = .next t) ∧
      ∃ t, hostOp (.read width addr x) s = .next t) ∧
    (¬meant → (∃ r, hostOp (.write width addr v) s = .refused r) ∧
      ∃ r, hostOp (.read width addr x) s = .refused r)

/-- R64, R275: when the machine has a step. It has one whenever the access the host makes next, if it makes one,
has a meaning; on the host's turn it is refused otherwise; and a host program whose every access has a
meaning, whatever its variables hold, keeps the machine running for ever. That a host past its last
access lets time pass, so that there is a step then too, is the model's choice (log entry 6): R317 calls
such a run ended once `BUSY` is 0. -/
def Obligations.AWellFormedHostNeverStopsTheMachine : Prop :=
  ∀ s : State,
    (s.nextAccessOk → ∃ t, step s = .next t) ∧
    (¬(s.engine.busy = true ∧ s.delay = 0) → ¬s.nextAccessOk → ∃ r, step s = .refused r) ∧
    (s.hostAccessesWf → s.nextAccessOk ∧ ∃ t, step s = .next t ∧ t.hostAccessesWf)

/-- R35, R45, R283, R287, with log entries 4 and 6: no host operation but reset depends on the key registers or
the key schedule: on two states that differ only in them it leaves the host alike, and the engines
differing only in them. Two parts of this are the model's choice and not the spec's: that a value the
rules draw (R65, U1) does not depend on the key, because the model draws by a counter alone (log entry 4),
and that the number of host steps a command takes does not, because the model draws it so (log
entry 6). -/
def Obligations.HostAccessesDoNotRevealTheKey : Prop :=
  ∀ (op : HostOp) (s t : State) (k : Quad) (rk : Schedule), op ≠ .reset → hostOp op s = .next t →
    ∃ t', hostOp op { s with engine := { s.engine with key := k, rk := rk } } = .next t' ∧
      t'.host = t.host ∧ t'.delay = t.delay ∧ t'.draws = t.draws ∧
      t' = { t with engine := { t.engine with key := t'.engine.key, rk := rk } }

/-- R112, R113: the host's `getbuf`. The assembler gives it as a read of `OUT_LEN` and the loop over the words;
and run with no command in progress, it reads exactly the `(n + 3) div 4` words of the output, `n` the
`OUT_LEN` read, word `k` into variable `t + k`, one access per step (a loop of no words takes one step and
makes no access); no other variable changes, and the engine stays as it is. The numbering of the
destinations and the step of an empty loop are the model's form (log entry 13), and that no platform
reset and no other host's access falls between the reads is its choice (log entries 11 and 16). -/
def Obligations.GetbufReadsTheWholeOutput : Prop :=
  (∀ (p : Params) (target : Nat → Nat) (pos n t : Nat),
    expandLine p target pos (.getbuf n t) =
      [.read .bits32 (p.base + 0x0005C) n, .readWords (p.base + 0x20000) n t]) ∧
  ∀ (s : State) (n t : Nat), s.params.wf = true → s.engine.outLen.toNat ≤ s.params.bufBytes →
    s.engine.busy = false → s.host.sweep = none →
    s.host.prog[s.host.pc]? = some (.read .bits32 (s.params.base + 0x0005C) n) →
    s.host.prog[s.host.pc + 1]? = some (.readWords (s.params.base + 0x20000) n t) →
    let m := (s.engine.outLen.toNat + 3) / 4
    ∃ u, runSteps (1 + max 1 m) s = .next u ∧
      u.engine = s.engine ∧ u.params = s.params ∧ u.resets = s.resets ∧ u.draws = s.draws ∧
      u.host.prog = s.host.prog ∧ u.host.pc = s.host.pc + 2 ∧ u.host.sweep = none ∧
      (∀ k < m, u.hostVar (t + k) = shiftedWord (s.outByte (4 * k)) (s.outByte (4 * k + 1))
        (s.outByte (4 * k + 2)) (s.outByte (4 * k + 3))) ∧
      (n < t ∨ t + m ≤ n → u.hostVar n = s.engine.outLen) ∧
      ∀ x, x ≠ n → x < t ∨ t + m ≤ x → u.hostVar x = s.hostVar x

/-! ### Reset, progress, invariant -/

/-- R300, R302: what reset leaves, whatever was in progress: every register at its value, the schedule zero, each
window byte at the value newly drawn for it. -/
def Obligations.ResetGivesTheResetStateWhateverWasInProgress : Prop :=
  ∀ s : State, ∃ t, hostOp .reset s = .next t ∧
    t.engine.cmd = 0 ∧ t.engine.busy = false ∧ t.engine.keyValid = false ∧ t.engine.errCode = .ok ∧
    t.engine.keyLen = 0 ∧ t.engine.key = ⟨0, 0, 0, 0⟩ ∧ t.engine.ivLen = 0 ∧
    t.engine.iv = ⟨0, 0, 0, 0⟩ ∧ t.engine.blkLen = 0 ∧ t.engine.blkIn = ⟨0, 0, 0, 0⟩ ∧
    t.engine.blkOut = ⟨0, 0, 0, 0⟩ ∧ t.engine.inLen = 0 ∧ t.engine.outLen = 0 ∧
    (∀ k ∈ t.engine.rk.keys, k.toBytes = List.replicate 16 0x00) ∧
    (∀ i, t.inByte i = Config.unwrittenByte (s.resets + 1) .inBuf i) ∧
    (∀ i, t.outByte i = Config.unwrittenByte (s.resets + 1) .outBuf i) ∧
    t.hostRead 0x00000 = some 0x41455331 ∧
    ∀ p : Params, (State.resetWith p).engine = t.engine

/-- R313: every accepted command is performed after finitely many host steps, on exactly the operands it was
accepted with: from any state with a command in progress and no reset to come, once the machine has run
`delay` host steps (which it does unless it is refused an access without a meaning, and always with a
host whose accesses all have one), the engine is untouched, and the next step performs the latched
word. How many host steps that is, and that a host past its last access lets time pass, is the model's
choice (log entry 6). -/
def Obligations.EveryAcceptedCommandIsPerformed : Prop :=
  (∀ s t : State, s.engine.busy = true → s.noReset → runSteps s.delay s = .next t →
    t.engine = s.engine ∧ t.delay = 0 ∧ t.params = s.params ∧ t.resets = s.resets ∧
    ∃ u, perform (decode s.engine.cmd) t = .next u ∧ runSteps (s.delay + 1) s = .next u ∧
      u.engine.busy = false) ∧
  ∀ s : State, s.engine.busy = true → s.hostAccessesWf → s.noReset →
    ∃ t, runSteps s.delay s = .next t

/-- The invariant holds right after reset, for every choice of the parameters R10 allows. Its part about the
engine holds by R30 and R300; that `State.reset` takes `BASE` = 0 (log entry 2), and that the model's own
fields start with no host step owed and no host variable assigned (log entry 15), is the model's
choice. -/
def Obligations.TheInvariantHoldsAtReset : Prop :=
  Config.params.wf = true ∧ State.reset = State.resetWith Config.params ∧
  ∀ p : Params, p.wf = true → (State.resetWith p).Inv

/-- R46, with the never-values of `STATUS`, the bounds and the canonical forms of the windows, and the
output a host is told of being written: every step keeps the invariant. -/
def Obligations.EveryStepKeepsTheInvariant : Prop :=
  ∀ s t : State, s.Inv → step s = .next t → t.Inv

/-! ### The key schedule -/

/-- R132, R133, R134, R135, R136: `Expand` word by word: the first four words are the key, each later word is the word four
back XORed with the previous one, that one rotated, substituted and XORed with the round constant at
every fourth word; rotation, substitution and exclusive-or on the four bytes of a word; the round
constants; and the round keys are the words four by four. -/
def Obligations.ExpandFollowsTheWordRecurrence : Prop :=
  (∀ a0 a1 a2 a3 : Byte, subWord ⟨a0, a1, a2, a3⟩ = ⟨sbox a0, sbox a1, sbox a2, sbox a3⟩ ∧
    rotWord ⟨a0, a1, a2, a3⟩ = ⟨a1, a2, a3, a0⟩ ∧
    ∀ b0 b1 b2 b3 : Byte, Col.xor ⟨a0, a1, a2, a3⟩ ⟨b0, b1, b2, b3⟩ =
      ⟨a0 ^^^ b0, a1 ^^^ b1, a2 ^^^ b2, a3 ^^^ b3⟩) ∧
  ((List.range 10).map fun i => rc (i + 1)) =
    [0x01, 0x02, 0x04, 0x08, 0x10, 0x20, 0x40, 0x80, 0x1b, 0x36] ∧
  (∀ i, 1 ≤ i → rc (i + 1) = xtime (rc i) ∧ rcon i = ⟨rc i, 0x00, 0x00, 0x00⟩) ∧
  ∀ k : Block,
    let w := fun i => (expand k).words.getD i ⟨0, 0, 0, 0⟩
    (expand k).words.length = 44 ∧
    (w 0 = k.c0 ∧ w 1 = k.c1 ∧ w 2 = k.c2 ∧ w 3 = k.c3) ∧
    (∀ i, 4 ≤ i → i < 44 → w i = (w (i - 4)).xor
      (if i % 4 = 0 then (subWord (rotWord (w (i - 1)))).xor (rcon (i / 4)) else w (i - 1))) ∧
    ∀ r < 11, (expand k).keys[r]? = some ⟨w (4 * r), w (4 * r + 1), w (4 * r + 2), w (4 * r + 3)⟩

/-- R131: the substitution table is the algebraic map at all 256 inputs, a permutation, without a fixed point. -/
def Obligations.TheSubstitutionTableIsTheAlgebraicOne : Prop :=
  (∀ x : Byte, sbox x = inv x ^^^ (inv x).rotateLeft 1 ^^^ (inv x).rotateLeft 2 ^^^
    (inv x).rotateLeft 3 ^^^ (inv x).rotateLeft 4 ^^^ 0x63) ∧
  (∀ x : Byte, sbox x = sboxAlgebraic x) ∧ (∀ x y : Byte, sbox x = sbox y → x = y) ∧
  ∀ x : Byte, sbox x ≠ x

/-- R178: `INV_SBOX` is the inverse permutation of `SBOX`, and `InvSubBytes` undoes `SubBytes`. -/
def Obligations.TheInverseTableInvertsTheTable : Prop :=
  (∀ x : Byte, invSbox (sbox x) = x ∧ sbox (invSbox x) = x) ∧
  ∀ s : Block, (∀ i < 16, (invSubBytes s).byte i = invSbox (s.byte i)) ∧
    (∀ i < 16, (subBytes s).byte i = sbox (s.byte i)) ∧ invSubBytes (subBytes s) = s

/-! ### The block transform -/

/-- R171, R172: `xtime` by its formula; `gmul` is commutative, associative, distributes over exclusive-or, has identity 0x01 and zero 0x00, and
every byte but 0x00 has `inv` as its one inverse. -/
def Obligations.TheFieldLawsHold : Prop :=
  (∀ a : Byte, xtime a = (a <<< 1) ^^^ (if 0x80 ≤ a.toNat then 0x1B else 0x00)) ∧
  (∀ a b : Byte, gmul a b = gmul b a) ∧
  (∀ a b c : Byte, gmul (gmul a b) c = gmul a (gmul b c)) ∧
  (∀ a b c : Byte, gmul a (b ^^^ c) = gmul a b ^^^ gmul a c) ∧
  (∀ a : Byte, gmul 0x01 a = a ∧ gmul 0x00 a = 0x00 ∧ gmul 0x02 a = xtime a) ∧
  inv 0x00 = 0x00 ∧
  ∀ a : Byte, a ≠ 0x00 → gmul a (inv a) = 0x01 ∧ ∀ c, gmul a c = 0x01 → c = inv a

/-- R176, R179: `ShiftRows` and `InvShiftRows` in flat form, and each the inverse of the other. -/
def Obligations.ShiftRowsInFlatFormAndItsInverse : Prop :=
  ∀ s : Block,
    (∀ i < 16, (shiftRows s).byte i = s.byte (i % 4 + 4 * ((i / 4 + i % 4) % 4))) ∧
    (∀ i < 16, (invShiftRows s).byte i = s.byte (i % 4 + 4 * ((i / 4 + 4 - i % 4) % 4))) ∧
    invShiftRows (shiftRows s) = s ∧ shiftRows (invShiftRows s) = s

/-- R180: `InvMixColumns` is the product with the circulant of (0e, 0b, 0d, 09), and it inverts `MixColumns`, on
every state and both ways round. -/
def Obligations.InvMixColumnsInvertsMixColumns : Prop :=
  (∀ a0 a1 a2 a3 : Byte, invMixColumn ⟨a0, a1, a2, a3⟩ =
    ⟨gmul 0x0e a0 ^^^ gmul 0x0b a1 ^^^ gmul 0x0d a2 ^^^ gmul 0x09 a3,
     gmul 0x09 a0 ^^^ gmul 0x0e a1 ^^^ gmul 0x0b a2 ^^^ gmul 0x0d a3,
     gmul 0x0d a0 ^^^ gmul 0x09 a1 ^^^ gmul 0x0e a2 ^^^ gmul 0x0b a3,
     gmul 0x0b a0 ^^^ gmul 0x0d a1 ^^^ gmul 0x09 a2 ^^^ gmul 0x0e a3⟩) ∧
  ∀ s : Block, invMixColumns (mixColumns s) = s ∧ mixColumns (invMixColumns s) = s

/-- R181 with R174 and R177: `Cipher` is the ten rounds, as a sequence of states: the block XORed with round key
0; for rounds 1 to 9 `SubBytes`, `ShiftRows`, `MixColumns` and the round key; and round 10 without
`MixColumns`. `AddRoundKey` byte by byte, and `MixColumns` by its formula on each column in flat form
(R173). -/
def Obligations.CipherIsTheTenRounds : Prop :=
  (∀ s k : Block, ∀ i < 16, (addRoundKey s k).byte i = s.byte i ^^^ k.byte i) ∧
  (∀ s : Block, ∀ c < 4,
    let a := fun r => s.byte (r + 4 * c)
    let m := fun r => (mixColumns s).byte (r + 4 * c)
    m 0 = gmul 0x02 (a 0) ^^^ gmul 0x03 (a 1) ^^^ a 2 ^^^ a 3 ∧
    m 1 = a 0 ^^^ gmul 0x02 (a 1) ^^^ gmul 0x03 (a 2) ^^^ a 3 ∧
    m 2 = a 0 ^^^ a 1 ^^^ gmul 0x02 (a 2) ^^^ gmul 0x03 (a 3) ∧
    m 3 = gmul 0x03 (a 0) ^^^ a 1 ^^^ a 2 ^^^ gmul 0x02 (a 3)) ∧
  ∀ (b : Block) (rk : Schedule),
    let key := fun r => rk.keys.getD r rk.rk0
    rk.keys = [rk.rk0, rk.rk1, rk.rk2, rk.rk3, rk.rk4, rk.rk5, rk.rk6, rk.rk7, rk.rk8, rk.rk9,
      rk.rk10] ∧
    ∃ st : Nat → Block, st 0 = addRoundKey b (key 0) ∧
      (∀ r, 1 ≤ r → r ≤ 9 →
        st r = addRoundKey (mixColumns (shiftRows (subBytes (st (r - 1))))) (key r)) ∧
      cipher b rk = addRoundKey (shiftRows (subBytes (st 9))) (key 10)

/-- R182 with R180: `InvCipher` is the ten inverse rounds, the round keys in reverse order, as a sequence of
states; and `InvMixColumns` works column by column. -/
def Obligations.InvCipherIsTheTenInverseRounds : Prop :=
  (∀ s : Block, ∀ c < 4,
    let a := fun r => s.byte (r + 4 * c)
    let m := fun r => (invMixColumns s).byte (r + 4 * c)
    m 0 = gmul 0x0e (a 0) ^^^ gmul 0x0b (a 1) ^^^ gmul 0x0d (a 2) ^^^ gmul 0x09 (a 3) ∧
    m 1 = gmul 0x09 (a 0) ^^^ gmul 0x0e (a 1) ^^^ gmul 0x0b (a 2) ^^^ gmul 0x0d (a 3) ∧
    m 2 = gmul 0x0d (a 0) ^^^ gmul 0x09 (a 1) ^^^ gmul 0x0e (a 2) ^^^ gmul 0x0b (a 3) ∧
    m 3 = gmul 0x0b (a 0) ^^^ gmul 0x0d (a 1) ^^^ gmul 0x09 (a 2) ^^^ gmul 0x0e (a 3)) ∧
  ∀ (b : Block) (rk : Schedule),
    let key := fun r => rk.keys.getD r rk.rk0
    ∃ st : Nat → Block, st 10 = addRoundKey b (key 10) ∧
      (∀ r, 1 ≤ r → r ≤ 9 →
        st r = invMixColumns (addRoundKey (invSubBytes (invShiftRows (st (r + 1)))) (key r))) ∧
      invCipher b rk = addRoundKey (invSubBytes (invShiftRows (st 1))) (key 0)

/-- R183: the cipher and its inverse undo each other, for every block and every schedule, expanded from a key or
not. -/
def Obligations.CipherAndInvCipherAreInverse : Prop :=
  ∀ (b : Block) (rk : Schedule),
    invCipher (cipher b rk) rk = b ∧ cipher (invCipher b rk) rk = b

/-- R37: the byte views of four registers, and that reading 16 bytes back from the registers they were written to
gives them. -/
def Obligations.ByteViewsAreMostSignificantFirst : Prop :=
  (∀ (q : Quad) (n m : Fin 4),
    q.toBlock.byte (4 * n.val + m.val) = (q.get n).extractLsb' (24 - 8 * m.val) 8) ∧
  (∀ b : Block, b.toQuad.toBlock = b) ∧ ∀ q : Quad, q.toBlock.toQuad = q

/-! ### The buffer codec -/

/-- R225, D37: the input of a buffer command is exactly `InBuf[0 .. IN_LEN)`. -/
def Obligations.TheInputIsTheWindowBelowInLen : Prop :=
  ∀ s : State, s.input.length = s.engine.inLen.toNat ∧
    ∀ i < s.engine.inLen.toNat, s.input[i]? = some (s.inByte i)

/-- R220: `Pad`. -/
def Obligations.PadAppendsItsOwnLength : Prop :=
  ∀ p : List Byte, ∃ n, n = 16 - p.length % 16 ∧ 1 ≤ n ∧ n ≤ 16 ∧
    pad p = p ++ List.replicate n (BitVec.ofNat 8 n) ∧ (pad p).length = 16 * (p.length / 16 + 1)

/-- R221 with spec/92_eei_decisions.md D19: on a string of whole blocks, `Unpad` succeeds with exactly the strings
`Pad` produces: it gives back what was padded, and rejects everything else. -/
def Obligations.UnpadAcceptsExactlyWhatPadProduces : Prop :=
  ∀ (d p : List Byte), d.length % 16 = 0 → 16 ≤ d.length → (unpad d = some p ↔ d = pad p)

/-- R222: ECB, block by block. -/
def Obligations.EcbTransformsEachBlockIndependently : Prop :=
  ∀ (d : List Byte) (rk : Schedule), d.length % 16 = 0 →
    (ecbEnc d rk).length = d.length ∧ (ecbDec d rk).length = d.length ∧
    ∀ i < d.length / 16, blockAt (ecbEnc d rk) i = cipher (blockAt d i) rk ∧
      blockAt (ecbDec d rk) i = invCipher (blockAt d i) rk

/-- R223: CBC, block by block, chained through the ciphertext; with an all-zero IV a single block gives what
ECB gives; and the CBC commands write no chaining value back to the IV registers. -/
def Obligations.CbcChainsThroughTheCiphertext : Prop :=
  (∀ (d : List Byte) (rk : Schedule) (iv : Block), d.length % 16 = 0 →
    (cbcEnc d rk iv).length = d.length ∧ (cbcDec d rk iv).length = d.length ∧
    (∀ i < d.length / 16, blockAt (cbcEnc d rk iv) i =
      cipher ((blockAt d i).xor (if i = 0 then iv else blockAt (cbcEnc d rk iv) (i - 1))) rk) ∧
    (∀ i < d.length / 16, blockAt (cbcDec d rk iv) i =
      (invCipher (blockAt d i) rk).xor (if i = 0 then iv else blockAt d (i - 1))) ∧
    (d.length = 16 → iv.toBytes = List.replicate 16 0x00 → cbcEnc d rk iv = ecbEnc d rk)) ∧
  (∀ x y : Block, ∀ i < 16, (x.xor y).byte i = x.byte i ^^^ y.byte i) ∧
  ∀ (i : Instr) (s t : State), i = .ebufCbc ∨ i = .dbufCbc → exec i s = .next t →
    t.engine.iv = s.engine.iv

/-- R234: the round trip through the machine. `EBUF` in either mode on any plaintext shorter than the window
completes OK; and from any later state `u` whose input is that output, under the same schedule (and the
same IV, for CBC), `DBUF` in that mode completes OK with the plaintext. -/
def Obligations.BuffersRoundTripInBothModes : Prop :=
  ∀ s : State, s.params.wf = true → s.engine.keyValid = true →
    s.engine.inLen.toNat < s.params.bufBytes →
    let copied := fun t u : State => u.params = s.params ∧ u.engine.keyValid = true ∧
      u.engine.rk = s.engine.rk ∧ u.engine.inLen = t.engine.outLen ∧
      ∀ i < t.engine.outLen.toNat, u.inByte i = t.outByte i
    let restored := fun v : State => v.engine.errCode = .ok ∧ v.engine.outLen = s.engine.inLen ∧
      ∀ i < s.engine.inLen.toNat, v.outByte i = s.inByte i
    (∃ t, exec .ebufEcb s = .next t ∧ t.engine.errCode = .ok ∧
      ∀ u, copied t u → ∃ v, exec .dbufEcb u = .next v ∧ restored v) ∧
    (s.engine.ivLen = 16 →
      ∃ t, exec .ebufCbc s = .next t ∧ t.engine.errCode = .ok ∧
        ∀ u, copied t u → u.engine.ivLen = 16 → u.engine.iv = s.engine.iv →
          ∃ v, exec .dbufCbc u = .next v ∧ restored v)

/-- R235: a buffer command's result depends only on the schedule, the mode, the IV (for CBC), `IN_LEN` and
`InBuf[0 .. IN_LEN)`: two states that agree on these get the same status, the same `OUT_LEN` and the
same output bytes, whatever else they hold. -/
def Obligations.BufferResultsDependOnlyOnTheirOperands : Prop :=
  ∀ (i : Instr) (s s' t t' : State), isBuffer (.command i) = true →
    s.params = s'.params → s.engine.keyValid = s'.engine.keyValid → s.engine.rk = s'.engine.rk →
    s.engine.inLen = s'.engine.inLen →
    (∀ a < s.engine.inLen.toNat, s.inByte a = s'.inByte a) →
    (i = .ebufCbc ∨ i = .dbufCbc →
      s.engine.ivLen = s'.engine.ivLen ∧ s.engine.iv = s'.engine.iv) →
    exec i s = .next t → exec i s' = .next t' →
    t.engine.errCode = t'.engine.errCode ∧ t.engine.outLen = t'.engine.outLen ∧
      ∀ a < t.engine.outLen.toNat, t.outByte a = t'.outByte a
end

