-- ==== Sys2Proof/Laws/Bytes.lean ====
section
/-! SUPPORT. Laws/Bytes.lean: the correspondence of byte strings, columns and blocks (R12, R173), of words and
columns (R37), and the lengths of what the codec produces. -/

namespace Sys2Proof

@[simp] theorem Col.toBytes_length (c : Col) : c.toBytes.length = 4 := rfl

@[simp] theorem Block.toBytes_length (b : Block) : b.toBytes.length = 16 := rfl

@[simp] theorem columnsOf_nil : columnsOf [] = [] := rfl

@[simp] theorem blocksOf_nil : blocksOf [] = [] := rfl

@[simp] theorem bytesOf_nil : bytesOf [] = [] := rfl

@[simp] theorem bytesOf_cons (b : Block) (bs : List Block) :
    bytesOf (b :: bs) = b.toBytes ++ bytesOf bs := rfl

theorem bytesOf_append (bs cs : List Block) : bytesOf (bs ++ cs) = bytesOf bs ++ bytesOf cs := by
  simp [bytesOf]

@[simp] theorem bytesOf_length (bs : List Block) : (bytesOf bs).length = 16 * bs.length := by
  induction bs with
  | nil => rfl
  | cons b bs ih => simp [ih]; omega

/-- Taking the first block off a byte string. -/
@[simp] theorem blocksOf_toBytes_append (b : Block) (d : List Byte) :
    blocksOf (b.toBytes ++ d) = b :: blocksOf d := rfl

/-- Cutting a concatenation of blocks gives the blocks back. -/
@[simp] theorem blocksOf_bytesOf (bs : List Block) : blocksOf (bytesOf bs) = bs := by
  induction bs with
  | nil => rfl
  | cons b bs ih => simp [ih]

/-- A byte string of at least 16 bytes begins with a block. -/
theorem exists_block_append {d : List Byte} (h : 16 ≤ d.length) :
    ∃ (b : Block) (r : List Byte), d = b.toBytes ++ r := by
  match d, h with
  | b0 :: b1 :: b2 :: b3 :: b4 :: b5 :: b6 :: b7 :: b8 :: b9 :: b10 :: b11 :: b12 :: b13 :: b14 ::
      b15 :: r, _ =>
    exact ⟨⟨⟨b0, b1, b2, b3⟩, ⟨b4, b5, b6, b7⟩, ⟨b8, b9, b10, b11⟩, ⟨b12, b13, b14, b15⟩⟩, r, rfl⟩

/-- A string of whole blocks is the concatenation of some blocks. -/
theorem exists_bytesOf {d : List Byte} (h : d.length % 16 = 0) : ∃ bs, d = bytesOf bs := by
  induction n : d.length / 16 generalizing d with
  | zero =>
    have : d.length = 0 := by omega
    exact ⟨[], by simpa using this⟩
  | succ k ih =>
    obtain ⟨b, r, rfl⟩ := exists_block_append (d := d) (by omega)
    simp only [List.length_append, Block.toBytes_length] at h n
    obtain ⟨bs, rfl⟩ := ih (d := r) (by omega) (by omega)
    exact ⟨b :: bs, rfl⟩

/-- Cutting a string of whole blocks loses nothing. -/
theorem bytesOf_blocksOf {d : List Byte} (h : d.length % 16 = 0) : bytesOf (blocksOf d) = d := by
  obtain ⟨bs, rfl⟩ := exists_bytesOf h
  simp

theorem blocksOf_length {d : List Byte} (h : d.length % 16 = 0) :
    (blocksOf d).length = d.length / 16 := by
  obtain ⟨bs, rfl⟩ := exists_bytesOf h
  simp

@[simp] theorem pad_length (p : List Byte) : (pad p).length = 16 * (p.length / 16 + 1) := by
  simp [pad, padLength]; omega

@[simp] theorem cbcEncBlocks_length (rk : Schedule) (prev : Block) (ds : List Block) :
    (cbcEncBlocks rk prev ds).length = ds.length := by
  induction ds generalizing prev with
  | nil => rfl
  | cons d ds ih => simp [cbcEncBlocks, ih]

@[simp] theorem cbcDecBlocks_length (rk : Schedule) (prev : Block) (cs : List Block) :
    (cbcDecBlocks rk prev cs).length = cs.length := by
  induction cs generalizing prev with
  | nil => rfl
  | cons c cs ih => simp [cbcDecBlocks, ih]

theorem ecbEnc_length {d : List Byte} (rk : Schedule) (h : d.length % 16 = 0) :
    (ecbEnc d rk).length = d.length := by
  simp [ecbEnc, blocksOf_length h]; omega

theorem ecbDec_length {d : List Byte} (rk : Schedule) (h : d.length % 16 = 0) :
    (ecbDec d rk).length = d.length := by
  simp [ecbDec, blocksOf_length h]; omega

theorem cbcEnc_length {d : List Byte} (rk : Schedule) (iv : Block) (h : d.length % 16 = 0) :
    (cbcEnc d rk iv).length = d.length := by
  simp [cbcEnc, blocksOf_length h]; omega

theorem cbcDec_length {d : List Byte} (rk : Schedule) (iv : Block) (h : d.length % 16 = 0) :
    (cbcDec d rk iv).length = d.length := by
  simp [cbcDec, blocksOf_length h]; omega

/-- What a successful `unpad` tells of its argument (R221). -/
theorem unpad_some {d r : List Byte} (h : unpad d = some r) :
    ∃ p : Nat, p = (d.getLastD 0x00).toNat ∧ 1 ≤ p ∧ p ≤ 16 ∧ r = d.take (d.length - p) ∧
      ∀ b ∈ d.drop (d.length - p), b = d.getLastD 0x00 := by
  unfold unpad at h
  simp only [Option.ite_none_left_eq_some] at h
  obtain ⟨h1, h2⟩ := h
  rw [not_or] at h1
  split at h2
  · rename_i hall
    refine ⟨_, rfl, ?_, ?_, (Option.some.inj h2).symm, ?_⟩
    · have := h1.1
      have h0 : (d.getLastD 0x00).toNat ≠ 0 := fun e => this (BitVec.eq_of_toNat_eq (by simpa using e))
      omega
    · have := h1.2
      have : ¬ (0x10#8).toNat < (d.getLastD 0x00).toNat := fun hlt => this (BitVec.lt_def.2 hlt)
      simpa using this
    · simpa using hall
  · exact absurd h2 (by simp)

end Sys2Proof
end

