-- ==== Sys2Proof/Laws/Memory.lean ====
section
/-! SUPPORT. Laws/Memory.lean: reading after writing, and that every memory operation keeps the canonical form
and the bound on addresses. -/

namespace Sys2Proof.Machine

variable {α : Type}

@[simp] theorem Sparse.read_nil (a : Nat) : Sparse.read ([] : Sparse α) a = none := rfl

theorem Sparse.read_write_same (m : Sparse α) (a : Nat) (v : α) :
    Sparse.read (Sparse.write m a v) a = some v := by
  induction m with
  | nil => simp [Sparse.write, Sparse.read]
  | cons c m ih =>
    obtain ⟨k, u⟩ := c
    simp only [Sparse.write]
    split
    · simp [Sparse.read]
    · split
      · simp [Sparse.read]
      · have h : k ≠ a := by omega
        simp [Sparse.read, h, ih]

theorem Sparse.read_write_other (m : Sparse α) {a b : Nat} (v : α) (h : b ≠ a) :
    Sparse.read (Sparse.write m a v) b = Sparse.read m b := by
  induction m with
  | nil => simp [Sparse.write, Sparse.read, h.symm]
  | cons c m ih =>
    obtain ⟨k, u⟩ := c
    simp only [Sparse.write]
    split
    · simp [Sparse.read, h.symm]
    · split
      · subst k
        simp [Sparse.read, h.symm]
      · simp [Sparse.read, ih]

/-- The one spec lemma of a write: what every address reads as afterwards. -/
theorem Sparse.read_write (m : Sparse α) (a b : Nat) (v : α) :
    Sparse.read (Sparse.write m a v) b = if b = a then some v else Sparse.read m b := by
  split
  · subst b; exact Sparse.read_write_same m a v
  · exact Sparse.read_write_other m v ‹_›

/-- The one spec lemma of a string write: what every address reads as afterwards. -/
theorem Sparse.read_writeAll (m : Sparse α) (a b : Nat) (vs : List α) :
    Sparse.read (Sparse.writeAll m a vs) b =
      if a ≤ b ∧ b < a + vs.length then vs[b - a]? else Sparse.read m b := by
  induction vs generalizing m a with
  | nil => simp [Sparse.writeAll]
  | cons v vs ih =>
    simp only [Sparse.writeAll, ih, Sparse.read_write, List.length_cons]
    by_cases h1 : b = a
    · subst b; simp
    · by_cases h2 : a + 1 ≤ b ∧ b < a + 1 + vs.length
      · have e : b - a = (b - (a + 1)) + 1 := by omega
        rw [if_pos h2, if_pos (by omega), e, List.getElem?_cons_succ]
      · rw [if_neg h2, if_neg h1, if_neg (by omega)]

theorem Sparse.mem_write {m : Sparse α} {a : Nat} {v : α} {c : Nat × α}
    (h : c ∈ Sparse.write m a v) : c = (a, v) ∨ c ∈ m := by
  induction m with
  | nil => simpa [Sparse.write] using h
  | cons d m ih =>
    obtain ⟨k, u⟩ := d
    simp only [Sparse.write] at h
    split at h
    · simpa using h
    · split at h
      · simp only [List.mem_cons] at h ⊢; tauto
      · simp only [List.mem_cons] at h ⊢
        rcases h with h | h
        · tauto
        · rcases ih h with h | h <;> tauto

/-- A write keeps the canonical form. -/
theorem Sparse.write_wf {m : Sparse α} (h : Sparse.wf m) (a : Nat) (v : α) :
    Sparse.wf (Sparse.write m a v) := by
  induction m with
  | nil => simp [Sparse.write, Sparse.wf]
  | cons d m ih =>
    obtain ⟨k, u⟩ := d
    simp only [Sparse.wf, List.map_cons, List.pairwise_cons] at h ih
    have hk : ∀ c ∈ m, k < c.1 := fun c hc => h.1 c.1 (List.mem_map_of_mem hc)
    simp only [Sparse.write]
    split
    · rename_i hak
      simp only [Sparse.wf, List.map_cons, List.pairwise_cons]
      refine ⟨?_, h⟩
      intro x hx
      rcases List.mem_cons.1 hx with rfl | hx
      · exact hak
      · exact lt_trans hak (h.1 x hx)
    · split
      · subst k
        simpa only [Sparse.wf, List.map_cons, List.pairwise_cons] using h
      · simp only [Sparse.wf, List.map_cons, List.pairwise_cons]
        refine ⟨?_, ih h.2⟩
        intro x hx
        obtain ⟨c, hc, rfl⟩ := List.mem_map.1 hx
        rcases Sparse.mem_write hc with rfl | hc
        · simp only; omega
        · exact hk c hc

/-- A string write keeps the canonical form. -/
theorem Sparse.writeAll_wf {m : Sparse α} (h : Sparse.wf m) (a : Nat) (vs : List α) :
    Sparse.wf (Sparse.writeAll m a vs) := by
  induction vs generalizing m a with
  | nil => exact h
  | cons v vs ih => exact ih (Sparse.write_wf h a v) (a + 1)

/-- A write below the bound keeps every address below it. -/
theorem Sparse.write_below {m : Sparse α} {n : Nat} (h : Sparse.below m n) {a : Nat} (ha : a < n)
    (v : α) : Sparse.below (Sparse.write m a v) n := by
  intro c hc
  rcases Sparse.mem_write hc with rfl | hc
  · exact ha
  · exact h c hc

/-- A string write that ends below the bound keeps every address below it. -/
theorem Sparse.writeAll_below {m : Sparse α} {n : Nat} (h : Sparse.below m n) {a : Nat}
    (vs : List α) (ha : a + vs.length ≤ n) : Sparse.below (Sparse.writeAll m a vs) n := by
  induction vs generalizing m a with
  | nil => exact h
  | cons v vs ih =>
    simp only [List.length_cons] at ha
    exact ih (Sparse.write_below h (by omega) v) (by omega)

/-- The empty memory of reset is in canonical form. -/
@[simp] theorem Sparse.wf_nil : Sparse.wf ([] : Sparse α) := by simp [Sparse.wf]

@[simp] theorem Sparse.below_nil (n : Nat) : Sparse.below ([] : Sparse α) n := by simp [Sparse.below]

end Sys2Proof.Machine
end

