-- ==== Sys2Proof/Laws/State.lean ====
section
/-! SUPPORT. Laws/State.lean: what each named update does to each field, one lemma per field per update, so that
no later proof unfolds a record update. -/

namespace Sys2Proof.Machine

/-! ### `Engine.complete` -/

@[simp] theorem Engine.complete_cmd (e : Engine) (c : Code) : (Engine.complete c e).cmd = e.cmd := rfl
@[simp] theorem Engine.complete_busy (e : Engine) (c : Code) : (Engine.complete c e).busy = false := rfl
@[simp] theorem Engine.complete_keyValid (e : Engine) (c : Code) :
    (Engine.complete c e).keyValid = e.keyValid := rfl
@[simp] theorem Engine.complete_errCode (e : Engine) (c : Code) : (Engine.complete c e).errCode = c := rfl
@[simp] theorem Engine.complete_keyLen (e : Engine) (c : Code) :
    (Engine.complete c e).keyLen = e.keyLen := rfl
@[simp] theorem Engine.complete_key (e : Engine) (c : Code) : (Engine.complete c e).key = e.key := rfl
@[simp] theorem Engine.complete_ivLen (e : Engine) (c : Code) :
    (Engine.complete c e).ivLen = e.ivLen := rfl
@[simp] theorem Engine.complete_iv (e : Engine) (c : Code) : (Engine.complete c e).iv = e.iv := rfl
@[simp] theorem Engine.complete_blkLen (e : Engine) (c : Code) :
    (Engine.complete c e).blkLen = e.blkLen := rfl
@[simp] theorem Engine.complete_blkIn (e : Engine) (c : Code) :
    (Engine.complete c e).blkIn = e.blkIn := rfl
@[simp] theorem Engine.complete_blkOut (e : Engine) (c : Code) :
    (Engine.complete c e).blkOut = e.blkOut := rfl
@[simp] theorem Engine.complete_inLen (e : Engine) (c : Code) :
    (Engine.complete c e).inLen = e.inLen := rfl
@[simp] theorem Engine.complete_outLen (e : Engine) (c : Code) :
    (Engine.complete c e).outLen = e.outLen := rfl
@[simp] theorem Engine.complete_inBuf (e : Engine) (c : Code) :
    (Engine.complete c e).inBuf = e.inBuf := rfl
@[simp] theorem Engine.complete_outBuf (e : Engine) (c : Code) :
    (Engine.complete c e).outBuf = e.outBuf := rfl
@[simp] theorem Engine.complete_rk (e : Engine) (c : Code) : (Engine.complete c e).rk = e.rk := rfl

/-! ### `Engine.setBusy` -/

@[simp] theorem Engine.setBusy_cmd (e : Engine) : (e.setBusy).cmd = e.cmd := rfl
@[simp] theorem Engine.setBusy_busy (e : Engine) : (e.setBusy).busy = true := rfl
@[simp] theorem Engine.setBusy_keyValid (e : Engine) : (e.setBusy).keyValid = e.keyValid := rfl
@[simp] theorem Engine.setBusy_errCode (e : Engine) : (e.setBusy).errCode = e.errCode := rfl
@[simp] theorem Engine.setBusy_keyLen (e : Engine) : (e.setBusy).keyLen = e.keyLen := rfl
@[simp] theorem Engine.setBusy_key (e : Engine) : (e.setBusy).key = e.key := rfl
@[simp] theorem Engine.setBusy_ivLen (e : Engine) : (e.setBusy).ivLen = e.ivLen := rfl
@[simp] theorem Engine.setBusy_iv (e : Engine) : (e.setBusy).iv = e.iv := rfl
@[simp] theorem Engine.setBusy_blkLen (e : Engine) : (e.setBusy).blkLen = e.blkLen := rfl
@[simp] theorem Engine.setBusy_blkIn (e : Engine) : (e.setBusy).blkIn = e.blkIn := rfl
@[simp] theorem Engine.setBusy_blkOut (e : Engine) : (e.setBusy).blkOut = e.blkOut := rfl
@[simp] theorem Engine.setBusy_inLen (e : Engine) : (e.setBusy).inLen = e.inLen := rfl
@[simp] theorem Engine.setBusy_outLen (e : Engine) : (e.setBusy).outLen = e.outLen := rfl
@[simp] theorem Engine.setBusy_inBuf (e : Engine) : (e.setBusy).inBuf = e.inBuf := rfl
@[simp] theorem Engine.setBusy_outBuf (e : Engine) : (e.setBusy).outBuf = e.outBuf := rfl
@[simp] theorem Engine.setBusy_rk (e : Engine) : (e.setBusy).rk = e.rk := rfl

/-! ### `Engine.clearSchedule` -/

@[simp] theorem Engine.clearSchedule_cmd (e : Engine) : (e.clearSchedule).cmd = e.cmd := rfl
@[simp] theorem Engine.clearSchedule_busy (e : Engine) : (e.clearSchedule).busy = e.busy := rfl
@[simp] theorem Engine.clearSchedule_keyValid (e : Engine) :
    (e.clearSchedule).keyValid = false := rfl
@[simp] theorem Engine.clearSchedule_errCode (e : Engine) :
    (e.clearSchedule).errCode = e.errCode := rfl
@[simp] theorem Engine.clearSchedule_keyLen (e : Engine) :
    (e.clearSchedule).keyLen = e.keyLen := rfl
@[simp] theorem Engine.clearSchedule_key (e : Engine) : (e.clearSchedule).key = e.key := rfl
@[simp] theorem Engine.clearSchedule_ivLen (e : Engine) : (e.clearSchedule).ivLen = e.ivLen := rfl
@[simp] theorem Engine.clearSchedule_iv (e : Engine) : (e.clearSchedule).iv = e.iv := rfl
@[simp] theorem Engine.clearSchedule_blkLen (e : Engine) :
    (e.clearSchedule).blkLen = e.blkLen := rfl
@[simp] theorem Engine.clearSchedule_blkIn (e : Engine) : (e.clearSchedule).blkIn = e.blkIn := rfl
@[simp] theorem Engine.clearSchedule_blkOut (e : Engine) :
    (e.clearSchedule).blkOut = e.blkOut := rfl
@[simp] theorem Engine.clearSchedule_inLen (e : Engine) : (e.clearSchedule).inLen = e.inLen := rfl
@[simp] theorem Engine.clearSchedule_outLen (e : Engine) :
    (e.clearSchedule).outLen = e.outLen := rfl
@[simp] theorem Engine.clearSchedule_inBuf (e : Engine) : (e.clearSchedule).inBuf = e.inBuf := rfl
@[simp] theorem Engine.clearSchedule_outBuf (e : Engine) :
    (e.clearSchedule).outBuf = e.outBuf := rfl
@[simp] theorem Engine.clearSchedule_rk (e : Engine) : (e.clearSchedule).rk = Schedule.zero := rfl

/-! ### `Engine.loadSchedule` -/

@[simp] theorem Engine.loadSchedule_cmd (e : Engine) (k : Schedule) :
    (e.loadSchedule k).cmd = e.cmd := rfl
@[simp] theorem Engine.loadSchedule_busy (e : Engine) (k : Schedule) :
    (e.loadSchedule k).busy = e.busy := rfl
@[simp] theorem Engine.loadSchedule_keyValid (e : Engine) (k : Schedule) :
    (e.loadSchedule k).keyValid = true := rfl
@[simp] theorem Engine.loadSchedule_errCode (e : Engine) (k : Schedule) :
    (e.loadSchedule k).errCode = e.errCode := rfl
@[simp] theorem Engine.loadSchedule_keyLen (e : Engine) (k : Schedule) :
    (e.loadSchedule k).keyLen = e.keyLen := rfl
@[simp] theorem Engine.loadSchedule_key (e : Engine) (k : Schedule) :
    (e.loadSchedule k).key = e.key := rfl
@[simp] theorem Engine.loadSchedule_ivLen (e : Engine) (k : Schedule) :
    (e.loadSchedule k).ivLen = e.ivLen := rfl
@[simp] theorem Engine.loadSchedule_iv (e : Engine) (k : Schedule) :
    (e.loadSchedule k).iv = e.iv := rfl
@[simp] theorem Engine.loadSchedule_blkLen (e : Engine) (k : Schedule) :
    (e.loadSchedule k).blkLen = e.blkLen := rfl
@[simp] theorem Engine.loadSchedule_blkIn (e : Engine) (k : Schedule) :
    (e.loadSchedule k).blkIn = e.blkIn := rfl
@[simp] theorem Engine.loadSchedule_blkOut (e : Engine) (k : Schedule) :
    (e.loadSchedule k).blkOut = e.blkOut := rfl
@[simp] theorem Engine.loadSchedule_inLen (e : Engine) (k : Schedule) :
    (e.loadSchedule k).inLen = e.inLen := rfl
@[simp] theorem Engine.loadSchedule_outLen (e : Engine) (k : Schedule) :
    (e.loadSchedule k).outLen = e.outLen := rfl
@[simp] theorem Engine.loadSchedule_inBuf (e : Engine) (k : Schedule) :
    (e.loadSchedule k).inBuf = e.inBuf := rfl
@[simp] theorem Engine.loadSchedule_outBuf (e : Engine) (k : Schedule) :
    (e.loadSchedule k).outBuf = e.outBuf := rfl
@[simp] theorem Engine.loadSchedule_rk (e : Engine) (k : Schedule) :
    (e.loadSchedule k).rk = k := rfl

/-! ### `Engine.setBlkOut` -/

@[simp] theorem Engine.setBlkOut_cmd (e : Engine) (b : Block) : (e.setBlkOut b).cmd = e.cmd := rfl
@[simp] theorem Engine.setBlkOut_busy (e : Engine) (b : Block) :
    (e.setBlkOut b).busy = e.busy := rfl
@[simp] theorem Engine.setBlkOut_keyValid (e : Engine) (b : Block) :
    (e.setBlkOut b).keyValid = e.keyValid := rfl
@[simp] theorem Engine.setBlkOut_errCode (e : Engine) (b : Block) :
    (e.setBlkOut b).errCode = e.errCode := rfl
@[simp] theorem Engine.setBlkOut_keyLen (e : Engine) (b : Block) :
    (e.setBlkOut b).keyLen = e.keyLen := rfl
@[simp] theorem Engine.setBlkOut_key (e : Engine) (b : Block) : (e.setBlkOut b).key = e.key := rfl
@[simp] theorem Engine.setBlkOut_ivLen (e : Engine) (b : Block) :
    (e.setBlkOut b).ivLen = e.ivLen := rfl
@[simp] theorem Engine.setBlkOut_iv (e : Engine) (b : Block) : (e.setBlkOut b).iv = e.iv := rfl
@[simp] theorem Engine.setBlkOut_blkLen (e : Engine) (b : Block) :
    (e.setBlkOut b).blkLen = e.blkLen := rfl
@[simp] theorem Engine.setBlkOut_blkIn (e : Engine) (b : Block) :
    (e.setBlkOut b).blkIn = e.blkIn := rfl
@[simp] theorem Engine.setBlkOut_blkOut (e : Engine) (b : Block) :
    (e.setBlkOut b).blkOut = b.toQuad := rfl
@[simp] theorem Engine.setBlkOut_inLen (e : Engine) (b : Block) :
    (e.setBlkOut b).inLen = e.inLen := rfl
@[simp] theorem Engine.setBlkOut_outLen (e : Engine) (b : Block) :
    (e.setBlkOut b).outLen = e.outLen := rfl
@[simp] theorem Engine.setBlkOut_inBuf (e : Engine) (b : Block) :
    (e.setBlkOut b).inBuf = e.inBuf := rfl
@[simp] theorem Engine.setBlkOut_outBuf (e : Engine) (b : Block) :
    (e.setBlkOut b).outBuf = e.outBuf := rfl
@[simp] theorem Engine.setBlkOut_rk (e : Engine) (b : Block) : (e.setBlkOut b).rk = e.rk := rfl

/-! ### `Engine.commitOutput` -/

@[simp] theorem Engine.commitOutput_cmd (e : Engine) (r : List Byte) :
    (e.commitOutput r).cmd = e.cmd := rfl
@[simp] theorem Engine.commitOutput_busy (e : Engine) (r : List Byte) :
    (e.commitOutput r).busy = e.busy := rfl
@[simp] theorem Engine.commitOutput_keyValid (e : Engine) (r : List Byte) :
    (e.commitOutput r).keyValid = e.keyValid := rfl
@[simp] theorem Engine.commitOutput_errCode (e : Engine) (r : List Byte) :
    (e.commitOutput r).errCode = e.errCode := rfl
@[simp] theorem Engine.commitOutput_keyLen (e : Engine) (r : List Byte) :
    (e.commitOutput r).keyLen = e.keyLen := rfl
@[simp] theorem Engine.commitOutput_key (e : Engine) (r : List Byte) :
    (e.commitOutput r).key = e.key := rfl
@[simp] theorem Engine.commitOutput_ivLen (e : Engine) (r : List Byte) :
    (e.commitOutput r).ivLen = e.ivLen := rfl
@[simp] theorem Engine.commitOutput_iv (e : Engine) (r : List Byte) :
    (e.commitOutput r).iv = e.iv := rfl
@[simp] theorem Engine.commitOutput_blkLen (e : Engine) (r : List Byte) :
    (e.commitOutput r).blkLen = e.blkLen := rfl
@[simp] theorem Engine.commitOutput_blkIn (e : Engine) (r : List Byte) :
    (e.commitOutput r).blkIn = e.blkIn := rfl
@[simp] theorem Engine.commitOutput_blkOut (e : Engine) (r : List Byte) :
    (e.commitOutput r).blkOut = e.blkOut := rfl
@[simp] theorem Engine.commitOutput_inLen (e : Engine) (r : List Byte) :
    (e.commitOutput r).inLen = e.inLen := rfl
@[simp] theorem Engine.commitOutput_outLen (e : Engine) (r : List Byte) :
    (e.commitOutput r).outLen = BitVec.ofNat 32 r.length := rfl
@[simp] theorem Engine.commitOutput_inBuf (e : Engine) (r : List Byte) :
    (e.commitOutput r).inBuf = e.inBuf := rfl
@[simp] theorem Engine.commitOutput_outBuf (e : Engine) (r : List Byte) :
    (e.commitOutput r).outBuf = Sparse.writeAll e.outBuf 0 r := rfl
@[simp] theorem Engine.commitOutput_rk (e : Engine) (r : List Byte) :
    (e.commitOutput r).rk = e.rk := rfl

/-! ### `Engine.dropOutput` -/

@[simp] theorem Engine.dropOutput_cmd (e : Engine) : (e.dropOutput).cmd = e.cmd := rfl
@[simp] theorem Engine.dropOutput_busy (e : Engine) : (e.dropOutput).busy = e.busy := rfl
@[simp] theorem Engine.dropOutput_keyValid (e : Engine) :
    (e.dropOutput).keyValid = e.keyValid := rfl
@[simp] theorem Engine.dropOutput_errCode (e : Engine) : (e.dropOutput).errCode = e.errCode := rfl
@[simp] theorem Engine.dropOutput_keyLen (e : Engine) : (e.dropOutput).keyLen = e.keyLen := rfl
@[simp] theorem Engine.dropOutput_key (e : Engine) : (e.dropOutput).key = e.key := rfl
@[simp] theorem Engine.dropOutput_ivLen (e : Engine) : (e.dropOutput).ivLen = e.ivLen := rfl
@[simp] theorem Engine.dropOutput_iv (e : Engine) : (e.dropOutput).iv = e.iv := rfl
@[simp] theorem Engine.dropOutput_blkLen (e : Engine) : (e.dropOutput).blkLen = e.blkLen := rfl
@[simp] theorem Engine.dropOutput_blkIn (e : Engine) : (e.dropOutput).blkIn = e.blkIn := rfl
@[simp] theorem Engine.dropOutput_blkOut (e : Engine) : (e.dropOutput).blkOut = e.blkOut := rfl
@[simp] theorem Engine.dropOutput_inLen (e : Engine) : (e.dropOutput).inLen = e.inLen := rfl
@[simp] theorem Engine.dropOutput_outLen (e : Engine) : (e.dropOutput).outLen = 0 := rfl
@[simp] theorem Engine.dropOutput_inBuf (e : Engine) : (e.dropOutput).inBuf = e.inBuf := rfl
@[simp] theorem Engine.dropOutput_outBuf (e : Engine) : (e.dropOutput).outBuf = e.outBuf := rfl
@[simp] theorem Engine.dropOutput_rk (e : Engine) : (e.dropOutput).rk = e.rk := rfl

/-! ### `State.withEngine` -/

@[simp] theorem State.withEngine_params (s : State) (e : Engine) :
    (s.withEngine e).params = s.params := rfl
@[simp] theorem State.withEngine_engine (s : State) (e : Engine) :
    (s.withEngine e).engine = e := rfl
@[simp] theorem State.withEngine_host (s : State) (e : Engine) :
    (s.withEngine e).host = s.host := rfl
@[simp] theorem State.withEngine_delay (s : State) (e : Engine) :
    (s.withEngine e).delay = s.delay := rfl
@[simp] theorem State.withEngine_draws (s : State) (e : Engine) :
    (s.withEngine e).draws = s.draws := rfl
@[simp] theorem State.withEngine_resets (s : State) (e : Engine) :
    (s.withEngine e).resets = s.resets := rfl

/-! ### `State.completeOk` -/

@[simp] theorem State.completeOk_params (s : State) (e : Engine) :
    (s.completeOk e).params = s.params := rfl
@[simp] theorem State.completeOk_engine (s : State) (e : Engine) :
    (s.completeOk e).engine = e.complete .ok := rfl
@[simp] theorem State.completeOk_host (s : State) (e : Engine) :
    (s.completeOk e).host = s.host := rfl
@[simp] theorem State.completeOk_delay (s : State) (e : Engine) :
    (s.completeOk e).delay = s.delay := rfl
@[simp] theorem State.completeOk_draws (s : State) (e : Engine) :
    (s.completeOk e).draws = s.draws := rfl
@[simp] theorem State.completeOk_resets (s : State) (e : Engine) :
    (s.completeOk e).resets = s.resets := rfl

/-! ### `State.raise` -/

@[simp] theorem State.raise_params (s : State) (k : Failing) (c : Code) :
    (s.raise k c).params = s.params := rfl
@[simp] theorem State.raise_engine (s : State) (k : Failing) (c : Code) :
    (s.raise k c).engine = (s.engine.failEffect k).complete c := rfl
@[simp] theorem State.raise_host (s : State) (k : Failing) (c : Code) :
    (s.raise k c).host = s.host := rfl
@[simp] theorem State.raise_delay (s : State) (k : Failing) (c : Code) :
    (s.raise k c).delay = s.delay := rfl
@[simp] theorem State.raise_draws (s : State) (k : Failing) (c : Code) :
    (s.raise k c).draws = s.draws := rfl
@[simp] theorem State.raise_resets (s : State) (k : Failing) (c : Code) :
    (s.raise k c).resets = s.resets := rfl

/-! ### `State.latch` -/

@[simp] theorem State.latch_params (s : State) (w : Word) : (s.latch w).params = s.params := rfl
@[simp] theorem State.latch_engine (s : State) (w : Word) :
    (s.latch w).engine = Engine.setBusy { s.engine with cmd := w } := rfl
@[simp] theorem State.latch_host (s : State) (w : Word) : (s.latch w).host = s.host := rfl
@[simp] theorem State.latch_delay (s : State) (w : Word) : (s.latch w).delay = 0 := rfl
@[simp] theorem State.latch_draws (s : State) (w : Word) : (s.latch w).draws = s.draws := rfl
@[simp] theorem State.latch_resets (s : State) (w : Word) : (s.latch w).resets = s.resets := rfl

/-! ### `State.acceptCommand` -/

@[simp] theorem State.acceptCommand_params (s : State) (v : Word) :
    (s.acceptCommand v).params = s.params := rfl
@[simp] theorem State.acceptCommand_engine (s : State) (v : Word) :
    (s.acceptCommand v).engine = Engine.setBusy { s.engine with cmd := v } := rfl
@[simp] theorem State.acceptCommand_host (s : State) (v : Word) :
    (s.acceptCommand v).host = s.host := rfl
@[simp] theorem State.acceptCommand_delay (s : State) (v : Word) :
    (s.acceptCommand v).delay = Config.engineDelay s.draws := rfl
@[simp] theorem State.acceptCommand_draws (s : State) (v : Word) :
    (s.acceptCommand v).draws = s.draws + 1 := rfl
@[simp] theorem State.acceptCommand_resets (s : State) (v : Word) :
    (s.acceptCommand v).resets = s.resets := rfl

/-! ### `State.platformReset` -/

@[simp] theorem State.platformReset_params (s : State) : (s.platformReset).params = s.params := rfl
@[simp] theorem State.platformReset_engine (s : State) :
    (s.platformReset).engine = Engine.reset := rfl
@[simp] theorem State.platformReset_host (s : State) : (s.platformReset).host = s.host := rfl
@[simp] theorem State.platformReset_delay (s : State) : (s.platformReset).delay = 0 := rfl
@[simp] theorem State.platformReset_draws (s : State) : (s.platformReset).draws = s.draws := rfl
@[simp] theorem State.platformReset_resets (s : State) :
    (s.platformReset).resets = s.resets + 1 := rfl

/-! ### `State.jump` -/

@[simp] theorem State.jump_params (s : State) (n : Nat) : (s.jump n).params = s.params := rfl
@[simp] theorem State.jump_engine (s : State) (n : Nat) : (s.jump n).engine = s.engine := rfl
@[simp] theorem State.jump_host (s : State) (n : Nat) :
    (s.jump n).host = { s.host with pc := n } := rfl
@[simp] theorem State.jump_delay (s : State) (n : Nat) : (s.jump n).delay = s.delay := rfl
@[simp] theorem State.jump_draws (s : State) (n : Nat) : (s.jump n).draws = s.draws := rfl
@[simp] theorem State.jump_resets (s : State) (n : Nat) : (s.jump n).resets = s.resets := rfl

/-! ### `State.advance` -/

@[simp] theorem State.advance_params (s : State) : (s.advance).params = s.params := rfl
@[simp] theorem State.advance_engine (s : State) : (s.advance).engine = s.engine := rfl
@[simp] theorem State.advance_host (s : State) :
    (s.advance).host = { s.host with pc := s.host.pc + 1 } := rfl
@[simp] theorem State.advance_delay (s : State) : (s.advance).delay = s.delay := rfl
@[simp] theorem State.advance_draws (s : State) : (s.advance).draws = s.draws := rfl
@[simp] theorem State.advance_resets (s : State) : (s.advance).resets = s.resets := rfl

/-! ### `State.assign` -/

@[simp] theorem State.assign_params (s : State) (t : Nat) (v : Word) :
    (s.assign t v).params = s.params := rfl
@[simp] theorem State.assign_engine (s : State) (t : Nat) (v : Word) :
    (s.assign t v).engine = s.engine := rfl
@[simp] theorem State.assign_host (s : State) (t : Nat) (v : Word) :
    (s.assign t v).host = { s.host with vars := Sparse.write s.host.vars t v } := rfl
@[simp] theorem State.assign_delay (s : State) (t : Nat) (v : Word) :
    (s.assign t v).delay = s.delay := rfl
@[simp] theorem State.assign_draws (s : State) (t : Nat) (v : Word) :
    (s.assign t v).draws = s.draws := rfl
@[simp] theorem State.assign_resets (s : State) (t : Nat) (v : Word) :
    (s.assign t v).resets = s.resets := rfl

/-! ### `State.setSweep` -/

@[simp] theorem State.setSweep_params (s : State) (w : Option Sweep) :
    (s.setSweep w).params = s.params := rfl
@[simp] theorem State.setSweep_engine (s : State) (w : Option Sweep) :
    (s.setSweep w).engine = s.engine := rfl
@[simp] theorem State.setSweep_delay (s : State) (w : Option Sweep) :
    (s.setSweep w).delay = s.delay := rfl
@[simp] theorem State.setSweep_draws (s : State) (w : Option Sweep) :
    (s.setSweep w).draws = s.draws := rfl
@[simp] theorem State.setSweep_resets (s : State) (w : Option Sweep) :
    (s.setSweep w).resets = s.resets := rfl
@[simp] theorem State.setSweep_host (s : State) (w : Option Sweep) :
    (s.setSweep w).host = { s.host with sweep := w } := rfl

/-! ### `State.endSweep` -/

@[simp] theorem State.endSweep_params (s : State) :
    (s.endSweep).params = s.params := rfl
@[simp] theorem State.endSweep_engine (s : State) :
    (s.endSweep).engine = s.engine := rfl
@[simp] theorem State.endSweep_delay (s : State) :
    (s.endSweep).delay = s.delay := rfl
@[simp] theorem State.endSweep_draws (s : State) :
    (s.endSweep).draws = s.draws := rfl
@[simp] theorem State.endSweep_resets (s : State) :
    (s.endSweep).resets = s.resets := rfl
@[simp] theorem State.endSweep_host (s : State) :
    (s.endSweep).host = { s.host with pc := s.host.pc + 1, sweep := none } := rfl

/-! ### `State.sweepOn` -/

@[simp] theorem State.sweepOn_params (s : State) (w : Sweep) :
    (s.sweepOn w).params = s.params := by
  unfold State.sweepOn; split <;> rfl
@[simp] theorem State.sweepOn_engine (s : State) (w : Sweep) :
    (s.sweepOn w).engine = s.engine := by
  unfold State.sweepOn; split <;> rfl
@[simp] theorem State.sweepOn_delay (s : State) (w : Sweep) :
    (s.sweepOn w).delay = s.delay := by
  unfold State.sweepOn; split <;> rfl
@[simp] theorem State.sweepOn_draws (s : State) (w : Sweep) :
    (s.sweepOn w).draws = s.draws := by
  unfold State.sweepOn; split <;> rfl
@[simp] theorem State.sweepOn_resets (s : State) (w : Sweep) :
    (s.sweepOn w).resets = s.resets := by
  unfold State.sweepOn; split <;> rfl
@[simp] theorem State.sweepOn_prog (s : State) (w : Sweep) :
    (s.sweepOn w).host.prog = s.host.prog := by
  unfold State.sweepOn; split <;> rfl
@[simp] theorem State.sweepOn_vars (s : State) (w : Sweep) :
    (s.sweepOn w).host.vars = s.host.vars := by
  unfold State.sweepOn; split <;> rfl

/-! ### `State.tick` -/

@[simp] theorem State.tick_params (s : State) : (s.tick).params = s.params := rfl
@[simp] theorem State.tick_engine (s : State) : (s.tick).engine = s.engine := rfl
@[simp] theorem State.tick_host (s : State) : (s.tick).host = s.host := rfl
@[simp] theorem State.tick_delay (s : State) : (s.tick).delay = s.delay - 1 := rfl
@[simp] theorem State.tick_draws (s : State) : (s.tick).draws = s.draws := rfl
@[simp] theorem State.tick_resets (s : State) : (s.tick).resets = s.resets := rfl

/-! ### `State.writeInWord` -/

@[simp] theorem State.writeInWord_params (s : State) (k : Nat) (v : Word) :
    (s.writeInWord k v).params = s.params := rfl
@[simp] theorem State.writeInWord_engine (s : State) (k : Nat) (v : Word) :
    (s.writeInWord k v).engine = { s.engine with
      inBuf := Sparse.writeAll s.engine.inBuf (4 * k) (Col.ofWord v).toBytes } := rfl
@[simp] theorem State.writeInWord_host (s : State) (k : Nat) (v : Word) :
    (s.writeInWord k v).host = s.host := rfl
@[simp] theorem State.writeInWord_delay (s : State) (k : Nat) (v : Word) :
    (s.writeInWord k v).delay = s.delay := rfl
@[simp] theorem State.writeInWord_draws (s : State) (k : Nat) (v : Word) :
    (s.writeInWord k v).draws = s.draws := rfl
@[simp] theorem State.writeInWord_resets (s : State) (k : Nat) (v : Word) :
    (s.writeInWord k v).resets = s.resets := rfl

/-! ### The other operations that keep everything outside the engine -/

/-- Every failing effect of R274 leaves all but the schedule, `KEY_VALID` and `OUT_LEN` alone. -/
@[simp] theorem Engine.failEffect_illegal (e : Engine) : e.failEffect .illegal = e := rfl
@[simp] theorem Engine.failEffect_block (e : Engine) : e.failEffect .block = e := rfl
@[simp] theorem Engine.failEffect_keyExpansion (e : Engine) :
    e.failEffect .keyExpansion = e.clearSchedule := rfl
@[simp] theorem Engine.failEffect_buffer (e : Engine) : e.failEffect .buffer = e.dropOutput := rfl

end Sys2Proof.Machine
end

