-- ==== Sys2Proof/Laws/Ops.lean ====
section
/-! SUPPORT. Laws/Ops.lean: one lemma per shared operation of the commands: when a check passes, what the first
error is, and everything a buffer command can do. -/

namespace Sys2Proof.Machine

@[simp] theorem firstError_nil : firstError [] = none := rfl

@[simp] theorem firstError_some (c : Code) (l : List (Option Code)) :
    firstError (some c :: l) = some c := rfl

@[simp] theorem firstError_none (l : List (Option Code)) : firstError (none :: l) = firstError l := rfl

/-- R272: no error exactly when every check passes. -/
theorem firstError_eq_none (l : List (Option Code)) : firstError l = none ↔ ∀ o ∈ l, o = none := by
  induction l with
  | nil => simp
  | cons o l ih => cases o <;> simp [ih]

/-- R272: an error reported is one of the checks'. -/
theorem firstError_mem {l : List (Option Code)} {c : Code} (h : firstError l = some c) :
    some c ∈ l := by
  induction l with
  | nil => simp at h
  | cons o l ih =>
    cases o with
    | none => exact List.mem_cons_of_mem _ (ih h)
    | some d => simp at h; simp [h]

theorem keyCheck_eq_none (e : Engine) : e.keyCheck = none ↔ e.keyValid = true := by
  simp [Engine.keyCheck]

theorem ivCheck_eq_none (e : Engine) : e.ivCheck = none ↔ e.ivLen = 16 := by
  simp [Engine.ivCheck]

theorem blkLenCheck_eq_none (e : Engine) : e.blkLenCheck = none ↔ e.blkLen = 16 := by
  simp [Engine.blkLenCheck]

theorem encryptBoundCheck_eq_none (e : Engine) (p : Params) :
    e.encryptBoundCheck p = none ↔ e.inLen.toNat < p.bufBytes := by
  simp [Engine.encryptBoundCheck]

theorem decryptBoundCheck_eq_none (e : Engine) (p : Params) :
    e.decryptBoundCheck p = none ↔ e.inLen.toNat ≤ p.bufBytes := by
  simp [Engine.decryptBoundCheck]

theorem wholeBlocksCheck_eq_none (e : Engine) :
    e.wholeBlocksCheck = none ↔ e.inLen.toNat ≠ 0 ∧ e.inLen.toNat % 16 = 0 := by
  simp [Engine.wholeBlocksCheck]

/-- R190, R191: a block command runs when a key is loaded and the block length is 16. -/
theorem blockError_eq_none (e : Engine) :
    e.blockError = none ↔ e.keyValid = true ∧ e.blkLen = 16 := by
  simp [Engine.blockError, firstError_eq_none, keyCheck_eq_none, blkLenCheck_eq_none]

theorem ebufEcbError_eq_none (s : State) :
    s.ebufEcbError = none ↔ s.engine.keyValid = true ∧ s.engine.inLen.toNat < s.params.bufBytes := by
  simp [State.ebufEcbError, firstError_eq_none, keyCheck_eq_none, encryptBoundCheck_eq_none]

theorem ebufCbcError_eq_none (s : State) :
    s.ebufCbcError = none ↔ s.engine.keyValid = true ∧ s.engine.ivLen = 16 ∧
      s.engine.inLen.toNat < s.params.bufBytes := by
  simp [State.ebufCbcError, firstError_eq_none, keyCheck_eq_none, ivCheck_eq_none,
    encryptBoundCheck_eq_none]

theorem dbufEcbError_eq_none (s : State) :
    s.dbufEcbError = none ↔ s.engine.keyValid = true ∧ s.engine.inLen.toNat ≤ s.params.bufBytes ∧
      s.engine.inLen.toNat ≠ 0 ∧ s.engine.inLen.toNat % 16 = 0 := by
  simp [State.dbufEcbError, firstError_eq_none, keyCheck_eq_none, decryptBoundCheck_eq_none,
    wholeBlocksCheck_eq_none]

theorem dbufCbcError_eq_none (s : State) :
    s.dbufCbcError = none ↔ s.engine.keyValid = true ∧ s.engine.ivLen = 16 ∧
      s.engine.inLen.toNat ≤ s.params.bufBytes ∧
      s.engine.inLen.toNat ≠ 0 ∧ s.engine.inLen.toNat % 16 = 0 := by
  simp [State.dbufCbcError, firstError_eq_none, keyCheck_eq_none, ivCheck_eq_none,
    decryptBoundCheck_eq_none, wholeBlocksCheck_eq_none]

@[simp] theorem State.input_length (s : State) : s.input.length = s.engine.inLen.toNat := by
  simp [State.input]

theorem State.input_getElem? (s : State) (i : Nat) :
    s.input[i]? = if i < s.engine.inLen.toNat then some (s.inByte i) else none := by
  simp only [State.input, List.getElem?_map, List.range_eq_range']
  split <;> rename_i h <;> simp [h]

/-- R227: what every byte of the output window reads as after a commit. -/
theorem State.outByte_commit (s : State) (r : List Byte) (i : Nat) :
    (s.completeOk (s.engine.commitOutput r)).outByte i = (r[i]?).getD (s.outByte i) := by
  simp only [State.outByte, windowByte, State.completeOk_engine, State.completeOk_resets,
    Engine.complete_outBuf, Engine.commitOutput_outBuf, Sparse.read_writeAll]
  by_cases h : i < r.length
  · simp [h]
  · simp [h]

/-- Everything an encrypting buffer command can do (R230, R231): raise the error of its checks, or commit
the transformed padded input. -/
theorem State.encryptBuffer_cases (s : State) (err : Option Code)
    (f : List Byte → List Byte) :
    (∃ c, err = some c ∧ s.encryptBuffer err f = s.raise .buffer c) ∨
    (err = none ∧ s.encryptBuffer err f = s.completeOk (s.engine.commitOutput (f (pad s.input)))) := by
  cases err with
  | some c => exact .inl ⟨c, rfl, rfl⟩
  | none => exact .inr ⟨rfl, rfl⟩

/-- Everything a decrypting buffer command can do (R232, R233): raise the error of its checks, raise
`PaddingError`, or commit the unpadded transformed input. -/
theorem State.decryptBuffer_cases (s : State) (err : Option Code)
    (f : List Byte → List Byte) :
    (∃ c, err = some c ∧ s.decryptBuffer err f = s.raise .buffer c) ∨
    (err = none ∧ unpad (f s.input) = none ∧
      s.decryptBuffer err f = s.raise .buffer .paddingError) ∨
    (∃ r, err = none ∧ unpad (f s.input) = some r ∧
      s.decryptBuffer err f = s.completeOk (s.engine.commitOutput r)) := by
  cases err with
  | some c => exact .inl ⟨c, rfl, rfl⟩
  | none =>
    cases h : unpad (f s.input) with
    | none => exact .inr (.inl ⟨rfl, rfl, by simp [State.decryptBuffer, h]⟩)
    | some r => exact .inr (.inr ⟨r, rfl, rfl, by simp [State.decryptBuffer, h]⟩)

/-- Everything a block command can do (R190, R191), given by the transform it applies. -/
theorem blockError_cases (e : Engine) :
    (e.keyValid = false ∧ e.blockError = some .invalidKeyLength) ∨
    (e.keyValid = true ∧ e.blkLen ≠ 16 ∧ e.blockError = some .invalidBlockLength) ∨
    (e.keyValid = true ∧ e.blkLen = 16 ∧ e.blockError = none) := by
  by_cases h : e.keyValid = true
  · by_cases h' : e.blkLen = 16
    · exact .inr (.inr ⟨h, h', (blockError_eq_none e).2 ⟨h, h'⟩⟩)
    · refine .inr (.inl ⟨h, h', ?_⟩)
      simp only [Engine.blockError, Engine.keyCheck, Engine.blkLenCheck, if_pos h, if_neg h',
        firstError_none, firstError_some]
  · refine .inl ⟨by simpa using h, ?_⟩
    simp only [Engine.blockError, Engine.keyCheck, if_neg h, firstError_some]

end Sys2Proof.Machine
end

