-- ==== Sys2Proof/Laws/Exec.lean ====
section
/-! SUPPORT. Laws/Exec.lean: what performing a command can do, said once: its effect as a function on the engine,
so that everything outside the engine is unchanged, and the shape of that effect for each command. -/

namespace Sys2Proof.Machine

/-- The effect of `KEXP` in its two cases (R140). -/
theorem execKexp_cases (s : State) :
    (s.engine.keyLen ≠ 16 ∧ exec .kexp s = .next (s.raise .keyExpansion .invalidKeyLength)) ∨
    (s.engine.keyLen = 16 ∧
      exec .kexp s = .next (s.completeOk (s.engine.loadSchedule (expand s.engine.keyBlock)))) := by
  by_cases h : s.engine.keyLen = 16
  · exact .inr ⟨h, if_neg (not_not.2 h)⟩
  · exact .inl ⟨h, if_pos h⟩

theorem execEblk_cases (s : State) :
    (∃ c, s.engine.blockError = some c ∧ exec .eblk s = .next (s.raise .block c)) ∨
    (s.engine.blockError = none ∧ exec .eblk s =
      .next (s.completeOk (s.engine.setBlkOut (cipher s.engine.inBlock s.engine.rk)))) := by
  cases h : s.engine.blockError <;> simp [exec, execEblk, h]

theorem execDblk_cases (s : State) :
    (∃ c, s.engine.blockError = some c ∧ exec .dblk s = .next (s.raise .block c)) ∨
    (s.engine.blockError = none ∧ exec .dblk s =
      .next (s.completeOk (s.engine.setBlkOut (invCipher s.engine.inBlock s.engine.rk)))) := by
  cases h : s.engine.blockError <;> simp [exec, execDblk, h]

/-- The ways a command can end: everything performing a decoded word can do, on any state. -/
inductive Effect (s : State) : Decoded → State → Prop where
  | nop : Effect s (.command .nop) (s.completeOk s.engine)
  | kexpFails : s.engine.keyLen ≠ 16 →
      Effect s (.command .kexp) (s.raise .keyExpansion .invalidKeyLength)
  | kexp : s.engine.keyLen = 16 →
      Effect s (.command .kexp) (s.completeOk (s.engine.loadSchedule (expand s.engine.keyBlock)))
  | kclr : Effect s (.command .kclr) (s.completeOk s.engine.clearSchedule)
  | eblkFails {c} : s.engine.blockError = some c →
      Effect s (.command .eblk) (s.raise .block c)
  | dblkFails {c} : s.engine.blockError = some c →
      Effect s (.command .dblk) (s.raise .block c)
  | eblk : s.engine.blockError = none →
      Effect s (.command .eblk) (s.completeOk (s.engine.setBlkOut (cipher s.engine.inBlock s.engine.rk)))
  | dblk : s.engine.blockError = none →
      Effect s (.command .dblk)
        (s.completeOk (s.engine.setBlkOut (invCipher s.engine.inBlock s.engine.rk)))
  | ebufEcbFails {c} : s.ebufEcbError = some c →
      Effect s (.command .ebufEcb) (s.raise .buffer c)
  | ebufCbcFails {c} : s.ebufCbcError = some c →
      Effect s (.command .ebufCbc) (s.raise .buffer c)
  | dbufEcbFails {c} : s.dbufEcbError = some c →
      Effect s (.command .dbufEcb) (s.raise .buffer c)
  | dbufCbcFails {c} : s.dbufCbcError = some c →
      Effect s (.command .dbufCbc) (s.raise .buffer c)
  | dbufEcbPadding : s.dbufEcbError = none → unpad (ecbDec s.input s.engine.rk) = none →
      Effect s (.command .dbufEcb) (s.raise .buffer .paddingError)
  | dbufCbcPadding : s.dbufCbcError = none →
      unpad (cbcDec s.input s.engine.rk s.engine.ivBlock) = none →
      Effect s (.command .dbufCbc) (s.raise .buffer .paddingError)
  | ebufEcb : s.ebufEcbError = none → Effect s (.command .ebufEcb)
      (s.completeOk (s.engine.commitOutput (ecbEnc (pad s.input) s.engine.rk)))
  | ebufCbc : s.ebufCbcError = none → Effect s (.command .ebufCbc)
      (s.completeOk (s.engine.commitOutput (cbcEnc (pad s.input) s.engine.rk s.engine.ivBlock)))
  | dbufEcb {r} : s.dbufEcbError = none → unpad (ecbDec s.input s.engine.rk) = some r →
      Effect s (.command .dbufEcb) (s.completeOk (s.engine.commitOutput r))
  | dbufCbc {r} : s.dbufCbcError = none →
      unpad (cbcDec s.input s.engine.rk s.engine.ivBlock) = some r →
      Effect s (.command .dbufCbc) (s.completeOk (s.engine.commitOutput r))
  | ebufBadMode : Effect s .ebufBadMode (s.raise .buffer s.engine.badModeError)
  | dbufBadMode : Effect s .dbufBadMode (s.raise .buffer s.engine.badModeError)
  | illegal : Effect s .illegal (s.raise .illegal .illegalCommand)

/-- Performing a decoded word always gives a next state, and by one of the ways of `Effect`. -/
theorem perform_effect (d : Decoded) (s : State) : ∃ t, perform d s = .next t ∧ Effect s d t := by
  cases d with
  | ebufBadMode => exact ⟨_, rfl, .ebufBadMode⟩
  | dbufBadMode => exact ⟨_, rfl, .dbufBadMode⟩
  | illegal => exact ⟨_, rfl, .illegal⟩
  | command i =>
    cases i with
    | nop => exact ⟨_, rfl, .nop⟩
    | kclr => exact ⟨_, rfl, .kclr⟩
    | kexp =>
      rcases execKexp_cases s with ⟨h, e⟩ | ⟨h, e⟩
      · exact ⟨_, e, .kexpFails h⟩
      · exact ⟨_, e, .kexp h⟩
    | eblk =>
      rcases execEblk_cases s with ⟨c, h, e⟩ | ⟨h, e⟩
      · exact ⟨_, e, .eblkFails h⟩
      · exact ⟨_, e, .eblk h⟩
    | dblk =>
      rcases execDblk_cases s with ⟨c, h, e⟩ | ⟨h, e⟩
      · exact ⟨_, e, .dblkFails h⟩
      · exact ⟨_, e, .dblk h⟩
    | ebufEcb =>
      refine ⟨_, rfl, ?_⟩
      rcases s.encryptBuffer_cases s.ebufEcbError fun d => ecbEnc d s.engine.rk with
        ⟨c, h, e⟩ | ⟨h, e⟩ <;> rw [e]
      · exact .ebufEcbFails h
      · exact .ebufEcb h
    | ebufCbc =>
      refine ⟨_, rfl, ?_⟩
      rcases s.encryptBuffer_cases s.ebufCbcError fun d => cbcEnc d s.engine.rk s.engine.ivBlock with
        ⟨c, h, e⟩ | ⟨h, e⟩ <;> rw [e]
      · exact .ebufCbcFails h
      · exact .ebufCbc h
    | dbufEcb =>
      refine ⟨_, rfl, ?_⟩
      rcases s.decryptBuffer_cases s.dbufEcbError fun d => ecbDec d s.engine.rk with
        ⟨c, h, e⟩ | ⟨h, u, e⟩ | ⟨r, h, u, e⟩ <;> rw [e]
      · exact .dbufEcbFails h
      · exact .dbufEcbPadding h u
      · exact .dbufEcb h u
    | dbufCbc =>
      refine ⟨_, rfl, ?_⟩
      rcases s.decryptBuffer_cases s.dbufCbcError fun d => cbcDec d s.engine.rk s.engine.ivBlock with
        ⟨c, h, e⟩ | ⟨h, u, e⟩ | ⟨r, h, u, e⟩ <;> rw [e]
      · exact .dbufCbcFails h
      · exact .dbufCbcPadding h u
      · exact .dbufCbc h u

/-- The inversion lemma of `perform`: a next state is one of the ways of `Effect`. -/
theorem perform_inv {d : Decoded} {s t : State} (h : perform d s = .next t) : Effect s d t := by
  obtain ⟨u, hu, he⟩ := perform_effect d s
  rw [h] at hu
  cases hu
  exact he

/-- Every way a command can end is a change of the engine only. -/
theorem Effect.withEngine {s t : State} {d : Decoded} (h : Effect s d t) :
    t = s.withEngine t.engine := by
  cases h <;> rfl

end Sys2Proof.Machine
end

