-- ==== Sys2Proof/Laws/HostSide.lean ====
section
/-! SUPPORT. Laws/HostSide.lean: the register map and the host's step: what an offset names, when an access has a
meaning, and everything a host operation can do. -/

namespace Sys2Proof.Machine

/-- R62: the register map lists each register at its offset. -/
theorem registerMap_offset (r : RegName) : registerMap[r.offset / 4]? = some r := by
  cases r with
  | key j => fin_cases j <;> rfl
  | iv j => fin_cases j <;> rfl
  | blkIn j => fin_cases j <;> rfl
  | blkOut j => fin_cases j <;> rfl
  | _ => rfl

theorem RegName.offset_lt (r : RegName) : r.offset < 0x60 := by
  cases r <;> simp [RegName.offset] <;> omega

theorem registerMap_none {n : Nat} (h : 24 ≤ n) : registerMap[n]? = none :=
  List.getElem?_eq_none (by simpa [registerMap] using h)

/-- R62: the offset of a register names it. -/
@[simp] theorem locate_offset (p : Params) (r : RegName) : locate p r.offset = .reg r := by
  simp [locate, registerMap_offset]

/-- R62, R63: an offset in `IN_BUF` names its word. -/
theorem locate_inBuf (p : Params) {k : Nat} (h : 4 * k + 4 ≤ p.bufBytes) :
    locate p (0x10000 + 4 * k) = .inWord k := by
  have e : (0x10000 + 4 * k - inBufOffset) / 4 = k := by simp [inBufOffset]
  rw [locate, registerMap_none (by omega)]
  simp only [e]
  rw [if_pos (by simp only [inBufOffset]; omega)]

/-- R62, R63: an offset in `OUT_BUF` names its word. -/
theorem locate_outBuf {p : Params} (hp : p.bufBytes ≤ 65536) {k : Nat}
    (h : 4 * k + 4 ≤ p.bufBytes) : locate p (0x20000 + 4 * k) = .outWord k := by
  have e : (0x20000 + 4 * k - outBufOffset) / 4 = k := by simp [outBufOffset]
  rw [locate, registerMap_none (by omega)]
  simp only [e]
  rw [if_neg (by simp only [inBufOffset]; omega), if_pos (by simp only [outBufOffset]; omega)]

/-- R62: every other offset is reserved. -/
theorem locate_reserved {p : Params} {off : Nat} (h0 : 0x60 ≤ off)
    (h1 : ¬(0x10000 ≤ off ∧ off < 0x10000 + p.bufBytes))
    (h2 : ¬(0x20000 ≤ off ∧ off < 0x20000 + p.bufBytes)) : locate p off = .reserved := by
  rw [locate, registerMap_none (by omega)]
  simp only
  rw [if_neg (by simpa only [inBufOffset] using h1), if_neg (by simpa only [outBufOffset] using h2)]

/-- A word of `IN_BUF` lies inside the window. -/
theorem locate_inWord_lt {p : Params} (hp : p.bufBytes % 4 = 0) {off k : Nat}
    (h4 : off % 4 = 0) (h : locate p off = .inWord k) :
    off = 0x10000 + 4 * k ∧ 4 * k + 4 ≤ p.bufBytes := by
  unfold locate at h
  split at h
  · simp at h
  · split at h
    · simp only [inBufOffset, Location.inWord.injEq] at *
      omega
    · split at h <;> simp at h

/-- R61, R64: an access has a meaning exactly when it is well formed, and it is at its offset. -/
theorem accessOffset_ok {p : Params} {width : AccessWidth} {addr off : Nat} :
    accessOffset p width addr = .ok off ↔ accessWf p width addr = true ∧ off = addr - p.base := by
  simp only [accessOffset, accessWf, regionBytes, Bool.and_eq_true, decide_eq_true_eq, beq_iff_eq]
  by_cases h1 : addr < p.base ∨ p.base + 0x30000 ≤ addr
  · rw [if_pos h1]
    refine ⟨fun h => by simp at h, fun h => ?_⟩
    omega
  · rw [if_neg h1]
    by_cases h2 : width = .bits32
    · rw [if_neg (not_not.2 h2)]
      by_cases h3 : (addr - p.base) % 4 = 0
      · rw [if_neg (not_not.2 h3), Except.ok.injEq]
        refine ⟨fun h => ⟨⟨⟨by omega, h2⟩, h3⟩, h.symm⟩, fun h => h.2.symm⟩
      · rw [if_pos h3]
        exact ⟨fun h => by simp at h, fun h => absurd h.1.2 h3⟩
    · rw [if_pos h2]
      exact ⟨fun h => by simp at h, fun h => absurd h.1.1.2 h2⟩

theorem accessOffset_error {p : Params} {width : AccessWidth} {addr : Nat} :
    (∃ r, accessOffset p width addr = .error r) ↔ accessWf p width addr = false := by
  constructor
  · rintro ⟨r, h⟩
    by_contra hw
    have := (accessOffset_ok (off := addr - p.base)).2 ⟨by simpa using hw, rfl⟩
    simp [h] at this
  · intro h
    cases e : accessOffset p width addr with
    | error r => exact ⟨r, rfl⟩
    | ok off => simp [(accessOffset_ok.1 e).1] at h

/-- R66, R67: while a command is in progress every host write is ignored. -/
@[simp] theorem State.hostWrite_busy {s : State} (h : s.engine.busy = true) (off : Nat) (v : Word) :
    s.hostWrite off v = s := by
  simp [State.hostWrite, h]

/-- A write while no command is in progress goes by what its offset names. -/
theorem State.hostWrite_idle {s : State} (h : s.engine.busy = false) (off : Nat) (v : Word) :
    s.hostWrite off v =
      match locate s.params off with
      | .reg r => s.writeRegister v r
      | .inWord k => s.writeInWord k v
      | .outWord _ => s
      | .reserved => s := by
  exact if_neg (by simp [h])

/-- Everything a host write can do to the machine. -/
theorem State.hostWrite_cases (s : State) (off : Nat) (v : Word) :
    s.hostWrite off v = s ∨
    (s.engine.busy = false ∧ locate s.params off = .reg .cmd ∧ s.hostWrite off v = s.acceptCommand v) ∨
    (s.engine.busy = false ∧ ∃ e, s.hostWrite off v = s.withEngine e ∧ e.busy = s.engine.busy ∧
      e.cmd = s.engine.cmd ∧ e.keyValid = s.engine.keyValid ∧ e.errCode = s.engine.errCode ∧
      e.blkOut = s.engine.blkOut ∧ e.outLen = s.engine.outLen ∧ e.outBuf = s.engine.outBuf ∧
      e.rk = s.engine.rk ∧
      (e.inBuf = s.engine.inBuf ∨ ∃ k, locate s.params off = .inWord k ∧
        e.inBuf = Sparse.writeAll s.engine.inBuf (4 * k) (Col.ofWord v).toBytes)) := by
  cases hb : s.engine.busy with
  | true => exact .inl (State.hostWrite_busy hb off v)
  | false =>
    rw [State.hostWrite_idle hb]
    cases hl : locate s.params off with
    | reserved => exact .inl rfl
    | outWord k => exact .inl rfl
    | inWord k =>
      exact .inr (.inr ⟨rfl, _, rfl, hb, rfl, rfl, rfl, rfl, rfl, rfl, rfl, .inr ⟨k, rfl, rfl⟩⟩)
    | reg r =>
      cases r with
      | id => exact .inl rfl
      | status => exact .inl rfl
      | blkOut j => exact .inl rfl
      | outLen => exact .inl rfl
      | cmd => exact .inr (.inl ⟨rfl, rfl, rfl⟩)
      | _ => exact .inr (.inr ⟨rfl, _, rfl, hb, rfl, rfl, rfl, rfl, rfl, rfl, rfl, .inl rfl⟩)

/-- R65, R68: a read leaves all but the host's variables and the count of draws alone. -/
theorem State.readInto_eq (s : State) (off t : Nat) :
    s.readInto off t =
      { s with
        host := { s.host with
          vars := Sparse.write s.host.vars t ((s.hostRead off).getD (Config.drawWord s.draws)) }
        draws := if (s.hostRead off).isSome then s.draws else s.draws + 1 } := by
  unfold State.readInto
  cases s.hostRead off <;> rfl

@[simp] theorem State.readInto_engine (s : State) (off t : Nat) :
    (s.readInto off t).engine = s.engine := by rw [State.readInto_eq]

@[simp] theorem State.readInto_params (s : State) (off t : Nat) :
    (s.readInto off t).params = s.params := by rw [State.readInto_eq]

@[simp] theorem State.readInto_delay (s : State) (off t : Nat) :
    (s.readInto off t).delay = s.delay := by rw [State.readInto_eq]

@[simp] theorem State.readInto_resets (s : State) (off t : Nat) :
    (s.readInto off t).resets = s.resets := by rw [State.readInto_eq]

/-- Everything a turn of a `getbuf` loop that answers a next state can do (R113): read one word and go on, or
end a loop of no words. -/
theorem readWordsTurn_next {addr n x : Nat} {s t : State} (h : readWordsTurn addr n x s = .next t) :
    (∃ off, (s.sweepAt n).next < (s.sweepAt n).total ∧
      accessOffset s.params .bits32 (addr + 4 * (s.sweepAt n).next) = .ok off ∧
      t = (s.readInto off (x + (s.sweepAt n).next)).sweepOn (s.sweepAt n)) ∨
    ((s.sweepAt n).total ≤ (s.sweepAt n).next ∧ t = s.endSweep) := by
  simp only [readWordsTurn] at h
  split at h
  · rename_i hw
    split at h
    · cases h
    · rename_i off e
      cases h
      exact .inl ⟨off, hw, e, rfl⟩
  · rename_i hw
    cases h
    exact .inr ⟨Nat.not_lt.1 hw, rfl⟩

/-- A turn of a `getbuf` loop leaves the engine, the parameters and the host's program alone. -/
theorem readWordsTurn_frame {addr n x : Nat} {s t : State} (h : readWordsTurn addr n x s = .next t) :
    t.engine = s.engine ∧ t.params = s.params ∧ t.delay = s.delay ∧ t.resets = s.resets ∧
      t.host.prog = s.host.prog := by
  rcases readWordsTurn_next h with ⟨off, _, _, rfl⟩ | ⟨_, rfl⟩
  · rw [State.readInto_eq]
    simp
  · exact ⟨rfl, rfl, rfl, rfl, rfl⟩

/-- Everything a host operation that answers a next state can do, by its kind. -/
theorem hostOp_next {op : HostOp} {s t : State} (h : hostOp op s = .next t) :
    (∃ addr v off, op = .write .bits32 addr v ∧ accessOffset s.params .bits32 addr = .ok off ∧
      t = (s.hostWrite off (s.hostVal v)).advance) ∨
    (∃ addr x off, op = .read .bits32 addr x ∧ accessOffset s.params .bits32 addr = .ok off ∧
      t = (s.readInto off x).advance) ∨
    (∃ addr n x, op = .readWords addr n x ∧ readWordsTurn addr n x s = .next t) ∨
    (∃ x mask target, op = .bnz x mask target ∧ ∃ n, t = s.jump n) ∨
    (op = .reset ∧ t = s.platformReset.advance) := by
  have width {w a off} (e : accessOffset s.params w a = .ok off) : w = .bits32 := by
    have := (accessOffset_ok.1 e).1
    simp only [accessWf, Bool.and_eq_true, beq_iff_eq] at this
    exact this.1.2
  cases op with
  | write w a v =>
    simp only [hostOp] at h
    split at h
    · cases h
    · rename_i off e
      obtain rfl := width e
      cases h
      exact .inl ⟨a, v, off, rfl, e, rfl⟩
  | read w a x =>
    simp only [hostOp] at h
    split at h
    · cases h
    · rename_i off e
      obtain rfl := width e
      cases h
      exact .inr (.inl ⟨a, x, off, rfl, e, rfl⟩)
  | readWords a n x => exact .inr (.inr (.inl ⟨a, n, x, rfl, h⟩))
  | bnz x mask target =>
    refine .inr (.inr (.inr (.inl ⟨x, mask, target, rfl, ?_⟩)))
    simp only [hostOp] at h
    split at h <;> cases h <;> exact ⟨_, rfl⟩
  | reset => cases h; exact .inr (.inr (.inr (.inr ⟨rfl, rfl⟩)))

/-- R64: a host operation has no step exactly when it is an ill-formed access. -/
theorem hostOp_wf {op : HostOp} {s : State} (h : HostOp.wf s.params op = true) :
    ∃ t, hostOp op s = .next t := by
  cases op with
  | write w a v =>
    exact ⟨_, by simp [hostOp, accessOffset_ok.2 ⟨h, rfl⟩]; rfl⟩
  | read w a x =>
    exact ⟨_, by simp [hostOp, accessOffset_ok.2 ⟨h, rfl⟩]; rfl⟩
  | readWords a n x => cases h
  | bnz x mask target =>
    simp only [hostOp]
    split <;> exact ⟨_, rfl⟩
  | reset => exact ⟨_, rfl⟩

end Sys2Proof.Machine
end

