-- ==== Sys2Proof/Laws/PerInstr.lean ====
section
/-! SUPPORT. Laws/PerInstr.lean: the statements made per instruction: one family, one lemma per constructor; and
that the memories right after reset are in canonical form. -/

/-- R103, R104: the word of a command decodes to that command. -/
def Sys2Proof.Laws.DecodeEncode.Statement (i : Sys2Proof.Instr) : Prop :=
  Sys2Proof.decode (Sys2Proof.encode i) = .command i

namespace Sys2Proof.Laws.DecodeEncode

theorem nop : Statement .nop := by rfl
theorem kexp : Statement .kexp := by rfl
theorem kclr : Statement .kclr := by rfl
theorem eblk : Statement .eblk := by rfl
theorem dblk : Statement .dblk := by rfl
theorem ebufEcb : Statement .ebufEcb := by rfl
theorem ebufCbc : Statement .ebufCbc := by rfl
theorem dbufEcb : Statement .dbufEcb := by rfl
theorem dbufCbc : Statement .dbufCbc := by rfl

end Sys2Proof.Laws.DecodeEncode

namespace Sys2Proof.Machine

theorem reset_inBuf_wf : Memory.wf State.reset.engine.inBuf := Sparse.wf_nil

theorem reset_outBuf_wf : Memory.wf State.reset.engine.outBuf := Sparse.wf_nil

end Sys2Proof.Machine
end

