-- ==== Sys2Proof/Laws/Step.lean ====
section
/-! SUPPORT. Laws/Step.lean: the two kinds of step, and everything a step can do. -/

namespace Sys2Proof.Machine

theorem State.engineTurn_iff (s : State) :
    s.engineTurn = true ↔ s.engine.busy = true ∧ s.delay = 0 := by
  simp [State.engineTurn]

/-- R110: on the engine's turn a step performs the latched word. -/
theorem step_engine {s : State} (h : s.engineTurn = true) :
    step s = perform (decode s.engine.cmd) s := by
  simp [step, h, engineStep]

/-- R17: otherwise a step is the host's. -/
theorem step_host {s : State} (h : s.engineTurn = false) : step s = hostTurn s := by
  simp [step, h]

/-- The inversion lemma of `step`: a next state comes from performing the latched word, from a host
operation, or from a host that has performed its last access. -/
theorem step_next {s t : State} (h : step s = .next t) :
    (s.engineTurn = true ∧ Effect s (decode s.engine.cmd) t) ∨
    (s.engineTurn = false ∧ ∃ op, s.nextOp = some op ∧ hostOp op s.tick = .next t) ∨
    (s.engineTurn = false ∧ s.nextOp = none ∧ t = s.tick) := by
  cases he : s.engineTurn with
  | true =>
    rw [step_engine he] at h
    exact .inl ⟨rfl, perform_inv h⟩
  | false =>
    rw [step_host he, hostTurn] at h
    cases hn : s.nextOp with
    | some op => exact .inr (.inl ⟨rfl, op, rfl, by simpa [hn] using h⟩)
    | none =>
      rw [hn] at h
      cases h
      exact .inr (.inr ⟨rfl, rfl, rfl⟩)

@[simp] theorem State.tick_nextOp (s : State) : s.tick.nextOp = s.nextOp := rfl

@[simp] theorem State.hostWrite_advance_host_prog (s : State) (off : Nat) (v : Word) :
    (s.hostWrite off v).advance.host.prog = s.host.prog := by
  rcases s.hostWrite_cases off v with h | ⟨_, _, h⟩ | ⟨_, e, h, _⟩ <;> rw [h] <;> rfl

/-- A step changes neither the parameters nor the host's program. -/
theorem step_params_prog {s t : State} (h : step s = .next t) :
    t.params = s.params ∧ t.host.prog = s.host.prog := by
  rcases step_next h with ⟨_, e⟩ | ⟨_, op, _, e⟩ | ⟨_, _, rfl⟩
  · rw [e.withEngine]; exact ⟨rfl, rfl⟩
  · rcases hostOp_next e with ⟨a, v, off, _, _, rfl⟩ | ⟨a, x, off, _, _, rfl⟩ |
      ⟨a, n, x, _, h⟩ | ⟨x, m, g, _, n, rfl⟩ | ⟨_, rfl⟩
    · rcases s.tick.hostWrite_cases off (s.tick.hostVal v) with h | ⟨_, _, h⟩ | ⟨_, e, h, _⟩ <;>
        rw [h] <;> exact ⟨rfl, rfl⟩
    · rw [State.readInto_eq]; exact ⟨rfl, rfl⟩
    · have f := readWordsTurn_frame h
      exact ⟨f.2.1, f.2.2.2.2⟩
    · exact ⟨rfl, rfl⟩
    · exact ⟨rfl, rfl⟩
  · exact ⟨rfl, rfl⟩

/-- R64: the host has a step exactly when the access it makes next, if it makes one, has a meaning. -/
theorem hostOp_accessOk (op : HostOp) (s : State) :
    (s.accessOk op = true → ∃ t, hostOp op s = .next t) ∧
    (s.accessOk op = false → ∃ r, hostOp op s = .refused r) := by
  cases op with
  | write w a v =>
    refine ⟨fun h => hostOp_wf h, fun h => ?_⟩
    obtain ⟨r, hr⟩ := accessOffset_error.2 h
    exact ⟨r, by simp [hostOp, hr]⟩
  | read w a x =>
    refine ⟨fun h => hostOp_wf h, fun h => ?_⟩
    obtain ⟨r, hr⟩ := accessOffset_error.2 h
    exact ⟨r, by simp [hostOp, hr]⟩
  | readWords a n x =>
    simp only [State.accessOk, hostOp, readWordsTurn]
    by_cases hw : (s.sweepAt n).next < (s.sweepAt n).total
    · simp only [hw, decide_true, Bool.not_true, Bool.false_or, if_true]
      refine ⟨fun h => ?_, fun h => ?_⟩
      · exact ⟨_, by simp only [accessOffset_ok.2 ⟨h, rfl⟩]; rfl⟩
      · obtain ⟨r, hr⟩ := accessOffset_error.2 h
        exact ⟨r, by simp only [hr]⟩
    · simp [hw]
  | bnz x mask target => exact ⟨fun _ => hostOp_wf rfl, fun h => by cases h⟩
  | reset => exact ⟨fun _ => hostOp_wf rfl, fun h => by cases h⟩

/-- A well-formed operation makes an access with a meaning in every state. -/
theorem accessOk_of_wf {op : HostOp} {s : State} (h : HostOp.wf s.params op = true) :
    s.accessOk op = true := by
  cases op with
  | write _ _ _ => exact h
  | read _ _ _ => exact h
  | readWords _ _ _ => cases h
  | bnz _ _ _ => rfl
  | reset => rfl

end Sys2Proof.Machine
end

