-- ==== Sys2Proof/Tests/Slice0.lean ====
section
/-! SUPPORT. Tests/Slice0.lean: tests against the examples and vectors of the spec (each names its source), a smoke
test of every well-formedness check, and for every statement with hypotheses a state that meets them. -/

open Sys2Proof Sys2Proof.Machine

namespace Sys2Proof.Tests

/-! ### States the tests use -/

/-- The key `K` of spec/95_test_vectors.md, in `KEY0..KEY3`. -/
def keyK : Quad := ⟨0x00010203, 0x04050607, 0x08090a0b, 0x0c0d0e0f⟩

/-- The plaintext block of KAT-1. -/
def plainBlock : Quad := ⟨0x00112233, 0x44556677, 0x8899aabb, 0xccddeeff⟩

/-- The ciphertext block of KAT-1. -/
def cipherBlock : Quad := ⟨0x69c4e0d8, 0x6a7b0430, 0xd8cdb780, 0x70b4c55a⟩

/-- The IV of BC-5. -/
def ivBC5 : Quad := ⟨0xf0f1f2f3, 0xf4f5f6f7, 0xf8f9fafb, 0xfcfdfeff⟩

/-- Reset with windows of `n` bytes, and key `K` declared with length 16. -/
def fresh (n : Nat) : State :=
  let s := State.resetWith ⟨0x40000, n⟩
  { s with engine := { s.engine with keyLen := 16, key := keyK } }

/-- `fresh n` with `K` expanded. -/
def keyed (n : Nat) : State :=
  { fresh n with engine := (fresh n).engine.loadSchedule (expand keyK.toBlock) }

/-- Put a byte string into `InBuf[0 ..)` and its length into `IN_LEN`. -/
def withInput (s : State) (d : List Byte) : State :=
  { s with engine := { s.engine with
      inLen := BitVec.ofNat 32 d.length, inBuf := Sparse.writeAll [] 0 d } }

/-- `IN_LEN` alone. -/
def withInLen (s : State) (n : Word) : State := { s with engine := { s.engine with inLen := n } }

/-- The IV of BC-5 with a declared length. -/
def withIv (s : State) (n : Word) : State :=
  { s with engine := { s.engine with ivLen := n, iv := ivBC5 } }

/-- A block in `BLK_IN0..3` with a declared length. -/
def withBlock (s : State) (n : Word) (q : Quad) : State :=
  { s with engine := { s.engine with blkLen := n, blkIn := q } }

/-- The state a decoded word leaves. -/
def after (d : Decoded) (s : State) : State :=
  match perform d s with
  | .next t => t
  | .fault _ => s
  | .refused _ => s

/-- `OutBuf[0 .. OUT_LEN)`. -/
def outBytes (s : State) : List Byte := (List.range s.engine.outLen.toNat).map s.outByte

/-- The bytes of a block given as four words. -/
def quadBytes (q : Quad) : List Byte := q.toBlock.toBytes

/-- The ciphertext of BC-1. -/
def cipherBC1 : Quad := ⟨0x954f64f2, 0xe4e86e9e, 0xee82d202, 0x16684899⟩

/-- The plaintext of BC-5, 20 bytes. -/
def plainBC5 : List Byte := quadBytes plainBlock ++ [0x01, 0x02, 0x03, 0x04]

/-- The ciphertext of BC-5, 32 bytes. -/
def cipherBC5 : List Byte :=
  quadBytes ⟨0x7702fc9b, 0x71c63d26, 0xa2f09df5, 0xc445102a⟩ ++
    quadBytes ⟨0xf3276e06, 0xd016d292, 0x75581640, 0x4127438e⟩

/-- A host about to run the operations `ops`. -/
def withHost (s : State) (ops : List HostOp) : State :=
  { s with host := { prog := ops, pc := 0, vars := [], sweep := none } }

/-! ### Decode: words written bit by bit from R100, R101, R102, R104 -/

theorem test_decode_nop : decode 0b00000000000000000000000000000000 = .command .nop := by decide

theorem test_decode_kexp : decode 0b00000000000000000000000000000001 = .command .kexp := by decide

theorem test_decode_kclr : decode 0b00000000000000000000000000000010 = .command .kclr := by decide

theorem test_decode_eblk : decode 0b00000000000000000000000000000011 = .command .eblk := by decide

theorem test_decode_dblk : decode 0b00000000000000000000000000000100 = .command .dblk := by decide

theorem test_decode_ebufEcb : decode 0b00000000000000000000000000000101 = .command .ebufEcb := by decide

theorem test_decode_ebufCbc : decode 0b00000000000000000000000000010101 = .command .ebufCbc := by decide

theorem test_decode_dbufEcb : decode 0b00000000000000000000000000000110 = .command .dbufEcb := by decide

theorem test_decode_dbufCbc : decode 0b00000000000000000000000000010110 = .command .dbufCbc := by decide

/-- EN-1, the reserved modes. -/
theorem test_decode_badMode : decode 0x00000025 = .ebufBadMode ∧ decode 0x000000F5 = .ebufBadMode ∧
    decode 0x00000026 = .dbufBadMode ∧ decode 0x000000F6 = .dbufBadMode := by decide

/-- EN-1, the illegal words. -/
theorem test_decode_illegal : [(0x00000010 : Word), 0x00000011, 0x00000013, 0x00000007, 0x0000000F,
    0x00000100, 0x00000105, 0x80000005, 0xFFFFFFFF].map decode = List.replicate 9 .illegal := by
  decide

/-- EN-1, the count: of the 256 words with `RSV = 0`, 9 are commands and 28 are bad modes. -/
theorem test_decode_counts :
    (((List.range 256).map fun n => decode (BitVec.ofNat 32 n)).filter fun d =>
      d == .ebufBadMode || d == .dbufBadMode).length = 28 ∧
    (((List.range 256).map fun n => decode (BitVec.ofNat 32 n)).filter fun d =>
      d != .ebufBadMode && d != .dbufBadMode && d != .illegal).length = 9 := by decide +kernel

/-- The host's two questions of spec/opcode_table.json, on the row `EBUF.CBC`. -/
theorem test_tableWord : decodeTableWord 32 0x15 = some .ebufCbc ∧ decodeTableWord 32 0x25 = none ∧
    decode (State.reset.withFetchWord 32 0x15).engine.cmd = .command .ebufCbc ∧
    (State.reset.withFetchWord 32 0x15).engineTurn = true := by decide

/-! ### Well-formedness: each check refuses an ill-formed term -/

theorem test_wf_base : Params.baseAligned ⟨0x20000, 4096⟩ = false ∧
    Params.wf ⟨0x20000, 4096⟩ = false ∧ Params.wf ⟨0x40000, 4096⟩ = true := by decide

theorem test_wf_wholeBlocks : Params.bufWholeBlocks ⟨0, 4100⟩ = false ∧
    Params.wf ⟨0, 4100⟩ = false := by decide

theorem test_wf_range : Params.bufInRange ⟨0, 0⟩ = false ∧ Params.bufInRange ⟨0, 65552⟩ = false ∧
    Params.wf ⟨0, 0⟩ = false ∧ Params.wf ⟨0, 65552⟩ = false ∧ Params.wf ⟨0, 16⟩ = true ∧
    Params.wf ⟨0, 65536⟩ = true := by decide

/-- R64: outside the region, a width other than 32 bits, an offset that is no multiple of 4. -/
theorem test_wf_access : accessWf ⟨0x40000, 16⟩ .bits32 0x3FFFC = false ∧
    accessWf ⟨0x40000, 16⟩ .bits32 0x70000 = false ∧ accessWf ⟨0x40000, 16⟩ .bits8 0x40004 = false ∧
    accessWf ⟨0x40000, 16⟩ .bits16 0x40004 = false ∧ accessWf ⟨0x40000, 16⟩ .bits64 0x40008 = false ∧
    accessWf ⟨0x40000, 16⟩ .burst 0x40000 = false ∧
    accessWf ⟨0x40000, 16⟩ .bits32 0x40006 = false ∧
    accessWf ⟨0x40000, 16⟩ .bits32 0x6FFFC = true := by decide

theorem test_wf_hostOp : HostOp.wf ⟨0, 16⟩ (.write .bits32 0x30000 (.imm 0)) = false ∧
    HostOp.wf ⟨0, 16⟩ (.read .bits8 0x00008 0) = false ∧ HostOp.wf ⟨0, 16⟩ (.bnz 0 1 0) = true ∧
    HostOp.wf ⟨0, 16⟩ .reset = true := by decide

/-! ### The tables, the field and the round functions -/

/-- R130: the three examples. -/
theorem test_sbox : sbox 0x53 = 0xed ∧ sbox 0x00 = 0x63 ∧ sbox 0xff = 0x16 := by decide

/-- R171, R172: the examples. -/
theorem test_field : xtime 0x57 = 0xae ∧ xtime 0x80 = 0x1b ∧ xtime 0x00 = 0x00 ∧
    gmul 0x57 0x13 = 0xfe ∧ gmul 0x01 0x53 = 0x53 ∧ gmul 0x00 0x53 = 0x00 ∧ inv 0x53 = 0xca := by
  decide +kernel

/-- BT-4: both shifts of `000102..0f`. -/
theorem test_shiftRows :
    shiftRows keyK.toBlock = (Quad.mk 0x00050a0f 0x04090e03 0x080d0207 0x0c01060b).toBlock ∧
    invShiftRows keyK.toBlock = (Quad.mk 0x000d0a07 0x04010e0b 0x0805020f 0x0c090603).toBlock := by
  decide

/-- R177: the example column, and back by R180. -/
theorem test_mixColumn : mixColumn ⟨0xdb, 0x13, 0x53, 0x45⟩ = ⟨0x8e, 0x4d, 0xa1, 0xbc⟩ ∧
    invMixColumn ⟨0x8e, 0x4d, 0xa1, 0xbc⟩ = ⟨0xdb, 0x13, 0x53, 0x45⟩ := by decide +kernel

/-- KS-4: the last round key of another key. -/
theorem test_expand_KS4 :
    (expand (Quad.mk 0x2b7e1516 0x28aed2a6 0xabf71588 0x09cf4f3c).toBlock).rk10.toQuad =
      ⟨0xd014f9a8, 0xc9ee2589, 0xe13f0cc8, 0xb6630ca6⟩ := by decide +kernel

/-! ### The commands: at most two tests each -/

/-- R260, the example: `STATUS = 0x32` becomes `0x02`. -/
theorem test_nop :
    let s := keyed 16
    let s := { s with engine := { s.engine with errCode := .invalidBlockLength } }
    s.engine.statusWord = 0x00000032 ∧ (after (.command .nop) s).engine.statusWord = 0x00000002 := by
  decide +kernel

/-- KS-1: the first and last round keys, and the status. -/
theorem test_kexp :
    let t := after (.command .kexp) (fresh 16)
    t.engine.rk.rk0.toQuad = keyK ∧
    t.engine.rk.rk10.toQuad = ⟨0x13111d7f, 0xe3944a17, 0xf307a78b, 0x4d2b30c5⟩ ∧
    t.engine.statusWord = 0x00000002 := by decide +kernel

/-- SRC-3, KS-5: a declared length of 15 destroys a loaded schedule. -/
theorem test_kexp_length :
    let s := keyed 16
    let t := after (.command .kexp) { s with engine := { s.engine with keyLen := 15 } }
    t.engine.statusWord = 0x00000010 ∧ t.engine.rk = Schedule.zero := by decide +kernel

/-- KS-6. -/
theorem test_kclr :
    let t := after (.command .kclr) (keyed 16)
    t.engine.statusWord = 0x00000000 ∧ t.engine.rk = Schedule.zero ∧ t.engine.key = keyK := by
  decide +kernel

/-- KAT-1, step 2. -/
theorem test_eblk :
    let t := after (.command .eblk) (withBlock (keyed 16) 16 plainBlock)
    t.engine.blkOut = cipherBlock ∧ t.engine.statusWord = 0x00000002 := by decide +kernel

/-- SRC-3, P4: without a schedule, before the block length is looked at. -/
theorem test_eblk_noKey :
    let t := after (.command .eblk) (withBlock (fresh 16) 15 plainBlock)
    t.engine.blkOut = ⟨0, 0, 0, 0⟩ ∧ t.engine.statusWord = 0x00000010 := by decide +kernel

/-- KAT-1, step 3. -/
theorem test_dblk :
    let t := after (.command .dblk) (withBlock (keyed 16) 16 cipherBlock)
    t.engine.blkOut = plainBlock ∧ t.engine.statusWord = 0x00000002 := by decide +kernel

/-- R191: a block length of 17. -/
theorem test_dblk_length :
    let t := after (.command .dblk) (withBlock (keyed 16) 17 cipherBlock)
    t.engine.blkOut = ⟨0, 0, 0, 0⟩ ∧ t.engine.statusWord = 0x00000032 := by decide +kernel

/-- BC-1: the empty plaintext. -/
theorem test_ebufEcb :
    let t := after (.command .ebufEcb) (withInput (keyed 16) [])
    t.engine.outLen = 16 ∧ outBytes t = quadBytes cipherBC1 ∧ t.engine.statusWord = 0x00000002 := by
  decide +kernel

/-- BC-12: a full window overflows, and `OUT_LEN` drops to 0. -/
theorem test_ebufEcb_overflow :
    let s := withInLen (keyed 4096) 4096
    let t := after (.command .ebufEcb) { s with engine := { s.engine with outLen := 16 } }
    t.engine.outLen = 0 ∧ t.engine.statusWord = 0x00000072 := by decide +kernel

/-- BC-5. -/
theorem test_ebufCbc :
    let t := after (.command .ebufCbc) (withIv (withInput (keyed 64) plainBC5) 16)
    t.engine.outLen = 32 ∧ outBytes t = cipherBC5 ∧ t.engine.statusWord = 0x00000002 := by
  decide +kernel

/-- BC-12: the IV length is reported before the overflow. -/
theorem test_ebufCbc_order :
    (after (.command .ebufCbc) (withInLen (keyed 4096) 5000)).engine.statusWord = 0x00000022 ∧
    (after (.command .ebufCbc) (withInLen (fresh 4096) 5000)).engine.statusWord = 0x00000010 := by
  decide +kernel

/-- BC-8, the third row: five trailing `05` bytes are stripped. -/
theorem test_dbufEcb :
    let t := after (.command .dbufEcb)
      (withInput (keyed 16) (quadBytes ⟨0xc61c0494, 0x33ee5d7d, 0x64182199, 0xbf33f3bd⟩))
    t.engine.outLen = 11 ∧ outBytes t = List.replicate 11 0x00 ∧
      t.engine.statusWord = 0x00000002 := by decide +kernel

/-- SRC-4: `05` with only four trailing `05` bytes; nothing is written. -/
theorem test_dbufEcb_padding :
    let t := after (.command .dbufEcb)
      (withInput (keyed 16) (quadBytes ⟨0x6b56a53b, 0x671e881d, 0x81d79e10, 0x1918e37c⟩))
    t.engine.outLen = 0 ∧ t.engine.outBuf = [] ∧ t.engine.statusWord = 0x00000052 := by
  decide +kernel

/-- BC-6. -/
theorem test_dbufCbc :
    let t := after (.command .dbufCbc) (withIv (withInput (keyed 64) cipherBC5) 16)
    t.engine.outLen = 20 ∧ outBytes t = plainBC5 ∧ t.engine.statusWord = 0x00000002 := by
  decide +kernel

/-- BC-12: the IV length before the block length, the overflow before it too. -/
theorem test_dbufCbc_order :
    (after (.command .dbufCbc) (withIv (withInLen (keyed 4096) 17) 15)).engine.statusWord = 0x00000022 ∧
    (after (.command .dbufCbc) (withIv (withInLen (keyed 4096) 4097) 16)).engine.statusWord =
      0x00000072 ∧
    (after (.command .dbufCbc) (withIv (withInLen (keyed 4096) 17) 16)).engine.statusWord =
      0x00000032 := by decide +kernel

/-- BC-12: a bad mode looks at the key only. -/
theorem test_badMode :
    (after (decode 0x00000025) (fresh 4096)).engine.statusWord = 0x00000010 ∧
    (after (decode 0x00000036) (withInLen (keyed 4096) 5000)).engine.statusWord = 0x00000042 := by
  decide +kernel

/-- P4: an illegal word. -/
theorem test_illegal : (after (decode 0x00000007) (keyed 16)).engine.statusWord = 0x00000062 ∧
    (after (decode 0x00000007) (fresh 16)).engine.statusWord = 0x00000060 := by decide +kernel

/-! ### Host access, reset, the step and the assembler -/

/-- R31, R33, R35, R65: the identity, the status and the write-only key registers. -/
theorem test_hostRead : (keyed 16).hostRead 0x00000 = some 0x41455331 ∧
    (keyed 16).hostRead 0x00008 = some 0x00000002 ∧ (keyed 16).hostRead 0x00010 = some 0 ∧
    (keyed 16).hostRead 0x0001C = some 0 ∧ (keyed 16).hostRead 0x0000C = some 16 ∧
    ((keyed 16).latch 3).hostRead 0x00048 = none ∧ ((keyed 16).latch 3).hostRead 0x00054 = none ∧
    ((keyed 16).latch 3).hostRead 0x00008 = some 0x00000003 ∧
    (keyed 16).hostRead 0x10010 = some 0 := by decide +kernel

/-- R63, R66: a word of `IN_BUF` is packed most significant byte first (BC-5's last word). -/
theorem test_hostWrite_inBuf :
    let s := (fresh 32).hostWrite 0x10010 0x01020304
    s.inByte 16 = 0x01 ∧ s.inByte 19 = 0x04 ∧ s.hostRead 0x10010 = some 0x01020304 := by
  decide +kernel

/-- R66, R67, P5: an operand written while a command is in progress is lost. -/
theorem test_hostWrite_busy :
    let s := withBlock (keyed 16) 16 plainBlock
    (s.latch 3).hostWrite 0x00034 0 = s.latch 3 ∧ (s.hostWrite 0x00034 0).engine.blkLen = 0 ∧
    (s.hostWrite 0x00004 3).engine.cmd = 3 ∧ (s.hostWrite 0x00004 3).engine.busy = true := by
  decide +kernel

/-- U2, U12: accesses without a meaning are refused by name. -/
theorem test_refusals :
    hostOp (.read .bits32 0x70000 0) (fresh 16) = .refused (.accessOutsideRegion 0x70000) ∧
    hostOp (.write .bits8 0x40004 (.imm 1)) (fresh 16) = .refused (.accessWidth 0x40004) ∧
    hostOp (.write .bits32 0x40006 (.imm 1)) (fresh 16) = .refused (.accessMisaligned 0x40006) :=
  ⟨rfl, rfl, rfl⟩

/-- R302: a reset abandons the command in progress. -/
theorem test_reset :
    let s := (withBlock (keyed 16) 16 plainBlock).latch 3
    s.platformReset.engine = Engine.reset ∧ s.platformReset.engineTurn = false := by
  decide +kernel

/-- R110: one step of the machine on a latched `EBLK` (KAT-1). -/
theorem test_step :
    (match step ((withBlock (keyed 16) 16 plainBlock).latch 3) with
     | .next t => t.engine.blkOut == cipherBlock && !t.engine.busy
     | .fault _ => false
     | .refused _ => false) = true := by decide +kernel

/-- R113, P1: `setkey` and `docmd` as the accesses the program's encoding lists. -/
theorem test_assemble :
    assemble ⟨0, 16⟩ [.setkey keyK.toBlock, .docmd .kexp 0 1] =
      [.write .bits32 0x00C (.imm 0x10), .write .bits32 0x010 (.imm 0x00010203),
       .write .bits32 0x014 (.imm 0x04050607), .write .bits32 0x018 (.imm 0x08090a0b),
       .write .bits32 0x01C (.imm 0x0c0d0e0f), .write .bits32 0x004 (.imm 0x00000001),
       .read .bits32 0x008 0, .bnz 0 0x1 6, .read .bits32 0x008 1] := by decide +kernel

/-- R113, P3: `setbuf` of 20 bytes is five window words; P2: a label and `getbuf`. -/
theorem test_assemble_buffers :
    assemble ⟨0, 32⟩ [.setbuf plainBC5] =
      [.write .bits32 0x058 (.imm 0x14), .write .bits32 0x10000 (.imm 0x00112233),
       .write .bits32 0x10004 (.imm 0x44556677), .write .bits32 0x10008 (.imm 0x8899aabb),
       .write .bits32 0x1000C (.imm 0xccddeeff), .write .bits32 0x10010 (.imm 0x01020304)] ∧
    assemble ⟨0, 32⟩ [.cmdRaw 0x25, .label 7, .getbuf 0 1, .bnz 0 0x1 7] =
      [.write .bits32 0x004 (.imm 0x25), .read .bits32 0x05C 0, .readWords 0x20000 0 1,
       .bnz 0 0x1 1] := by decide +kernel

/-- R236: a CBC decryption as its command sequence. -/
theorem test_callDecrypt :
    callDecrypt (some ivBC5.toBlock) cipherBC5 0 1 2 3 =
      [.setiv ivBC5.toBlock, .setbuf cipherBC5, .command .dbufCbc, .wait 0, .read .status 1,
       .getbuf 2 3] ∧
    callEncrypt none plainBC5 0 1 2 3 =
      [.setbuf plainBC5, .command .ebufEcb, .wait 0, .read .status 1, .getbuf 2 3] := by decide

/-- A host about to run `getbuf -> n, t0..` on `len` bytes of output that begin `01 02 .. 08`. -/
def getting (len : Word) : State :=
  let z := keyed 16
  withHost { z with engine := { z.engine with
      outLen := len, outBuf := Sparse.writeAll [] 0 [1, 2, 3, 4, 5, 6, 7, 8] } }
    [.read .bits32 0x4005C 0, .readWords 0x60000 0 1]

/-- The host's variables after `k` steps. -/
def varsAfter (k : Nat) (s : State) : List (Nat × Word) :=
  match runSteps k s with
  | .next t => t.host.vars
  | .fault _ => []
  | .refused _ => []

/-- R113: `n` = 5 reads two words and no third; `n` = 0 reads none. -/
theorem test_getbuf : varsAfter 4 (getting 5) = [(0, 5), (1, 0x01020304), (2, 0x05060708)] ∧
    varsAfter 3 (getting 5) = varsAfter 4 (getting 5) ∧
    varsAfter 2 (getting 5) = [(0, 5), (1, 0x01020304)] ∧
    varsAfter 2 (getting 0) = [(0, 0)] := by decide +kernel

/-- A host in the middle of a loop that is about to read past the end of the region. -/
def runningOut : State :=
  let s := withHost (getting 5) [.readWords 0x60000 0 1]
  s.setSweep (some ⟨0x4000, 0x5000⟩)

/-- U12: the access past the region is refused by name. -/
theorem test_getbuf_refused :
    hostOp (.readWords 0x60000 0 1) runningOut = .refused (.accessOutsideRegion 0x70000) := rfl

/-! ### A state for the hypotheses of every statement

Each theorem is named after the statement whose hypotheses it meets; the states are those above. -/

/-- R105, at the edges of its three ranges, and just outside them. -/
theorem test_witness_IllegalWords : (fresh 16).engine.busy = false ∧
    decode 0x00000100 = .illegal ∧ decode 0x00000007 = .illegal ∧ decode 0x00000010 = .illegal ∧
    decode 0x00000006 ≠ .illegal ∧ decode 0x00000015 ≠ .illegal ∧ decode 0x000000F5 ≠ .illegal := by
  decide

/-- R106, at both ends of the mode range, without and with a key. -/
theorem test_witness_BadModeWords : decode 0x00000025 = .ebufBadMode ∧ decode 0x000000F6 = .dbufBadMode ∧
    (fresh 16).engine.keyValid = false ∧ (keyed 16).engine.keyValid = true := by decide

/-- One latched word for each clause. -/
theorem test_witness_StepPerforms : ((keyed 16).latch 0x15).engine.busy = true ∧
    ((keyed 16).latch 0x15).delay = 0 ∧
    decode ((keyed 16).latch 0x15).engine.cmd = .command .ebufCbc ∧
    decode ((keyed 16).latch 0x25).engine.cmd = .ebufBadMode ∧
    decode ((keyed 16).latch 0x26).engine.cmd = .dbufBadMode ∧
    decode ((keyed 16).latch 0x07).engine.cmd = .illegal := by decide

theorem test_witness_EveryEngineStep : ((fresh 16).latch 0x07).engine.busy = true ∧
    ((fresh 16).latch 0x07).delay = 0 := by decide

theorem test_witness_Nop : (0x00000010 : Word).toNat % 16 = 0x0 ∧ (0x00000010 : Word) ≠ 0 := by decide

/-- Both outcomes; the failing one at 15 and 17. -/
theorem test_witness_Kexp : (fresh 16).engine.keyLen = 16 ∧
    ({ (fresh 16).engine with keyLen := 15 } : Engine).keyLen ≠ 16 ∧
    ({ (fresh 16).engine with keyLen := 17 } : Engine).keyLen ≠ 16 := by decide

/-- The three outcomes of `EBLK` and `DBLK`. -/
theorem test_witness_Eblk_Dblk : (fresh 16).engine.keyValid = false ∧
    (withBlock (keyed 16) 15 plainBlock).engine.keyValid = true ∧
    (withBlock (keyed 16) 15 plainBlock).engine.blkLen ≠ 16 ∧
    (withBlock (keyed 16) 17 plainBlock).engine.blkLen ≠ 16 ∧
    (withBlock (keyed 16) 16 plainBlock).engine.keyValid = true ∧
    (withBlock (keyed 16) 16 plainBlock).engine.blkLen = 16 := by decide

/-- The outcomes of `EBUF.ECB` and `EBUF.CBC`, at `L = B` and `L = B - 1`. -/
theorem test_witness_Ebuf : (fresh 16).engine.keyValid = false ∧ (keyed 16).engine.keyValid = true ∧
    (withIv (withInLen (keyed 16) 16) 15).engine.ivLen ≠ 16 ∧
    (withIv (withInLen (keyed 16) 16) 16).engine.ivLen = 16 ∧
    (withIv (withInLen (keyed 16) 16) 16).params.bufBytes ≤
      (withIv (withInLen (keyed 16) 16) 16).engine.inLen.toNat ∧
    (withIv (withInLen (keyed 16) 15) 16).engine.inLen.toNat <
      (withIv (withInLen (keyed 16) 15) 16).params.bufBytes ∧
    (withIv (withInLen (keyed 16) 15) 16).engine.keyValid = true := by decide

/-- The outcomes of `DBUF.ECB` by length: above the window, zero, no whole blocks, the whole window. -/
theorem test_witness_Dbuf_lengths : (keyed 16).params.bufBytes < (withInLen (keyed 16) 17).engine.inLen.toNat ∧
    (withInLen (keyed 16) 0).engine.inLen.toNat = 0 ∧
    (withInLen (keyed 16) 15).engine.inLen.toNat % 16 ≠ 0 ∧
    (withInLen (keyed 16) 16).engine.inLen.toNat ≤ (keyed 16).params.bufBytes ∧
    (withInLen (keyed 16) 16).engine.inLen.toNat ≠ 0 ∧
    (withInLen (keyed 16) 16).engine.inLen.toNat % 16 = 0 ∧
    (withIv (withInLen (keyed 16) 16) 16).engine.ivLen = 16 := by decide

/-- The two paddings of `DBUF.ECB`: BC-8, fourth and second rows. -/
theorem test_witness_DbufEcb :
    let bad := withInput (keyed 16) (quadBytes ⟨0x6b56a53b, 0x671e881d, 0x81d79e10, 0x1918e37c⟩)
    let good := withInput (keyed 16) (quadBytes ⟨0x73461395, 0x95c0b41e, 0x497bbde3, 0x65f42d0a⟩)
    unpad (ecbDec bad.input bad.engine.rk) = none ∧
    unpad (ecbDec good.input good.engine.rk) = some (List.replicate 15 0x00) := by decide +kernel

/-- The two paddings of `DBUF.CBC`: BC-11 and BC-6. -/
theorem test_witness_DbufCbc :
    let bad := withIv (withInput (keyed 32) (cipherBC5.set 15 0x23)) 16
    let good := withIv (withInput (keyed 32) cipherBC5) 16
    unpad (cbcDec bad.input bad.engine.rk bad.engine.iv.toBlock) = none ∧
    unpad (cbcDec good.input good.engine.rk good.engine.iv.toBlock) = some plainBC5 := by
  decide +kernel

/-- A next state for every decoded word (the frames), with each clause's side conditions. -/
theorem test_witness_Frames : (∃ t, perform (.command .ebufEcb) (withInput (keyed 16) []) = .next t) ∧
    Decoded.command .ebufEcb ≠ .command .kexp ∧ Decoded.command .ebufEcb ≠ .command .kclr ∧
    Decoded.command .ebufEcb ≠ .command .eblk ∧ Decoded.command .ebufEcb ≠ .command .dblk ∧
    isBuffer (.command .ebufEcb) = true ∧ isBuffer (.command .kexp) = false := by
  refine ⟨⟨_, rfl⟩, by decide, by decide, by decide, by decide, by decide, by decide⟩

/-- A failure of each row of R274. -/
theorem test_witness_AFailingCommand :
    (after .illegal (keyed 16)).engine.errCode ≠ .ok ∧
    (after (.command .kexp) (State.resetWith ⟨0, 16⟩)).engine.errCode ≠ .ok ∧
    (after (.command .eblk) (fresh 16)).engine.errCode ≠ .ok ∧
    (after (.command .dbufEcb) (withInLen (keyed 16) 0)).engine.errCode ≠ .ok ∧
    (after .ebufBadMode (keyed 16)).engine.errCode ≠ .ok := by decide

theorem test_witness_WithoutASchedule : (fresh 16).engine.keyValid = false ∧
    Decoded.ebufBadMode ≠ .command .nop ∧ Decoded.ebufBadMode ≠ .command .kexp ∧
    Decoded.ebufBadMode ≠ .command .kclr ∧ Decoded.ebufBadMode ≠ .illegal ∧
    (∃ t, exec .kclr (keyed 16) = .next t) ∧
    (∃ t, exec .kexp (State.resetWith ⟨0, 16⟩) = .next t ∧ t.engine.errCode ≠ .ok) := by
  refine ⟨by decide, by decide, by decide, by decide, by decide, ⟨_, rfl⟩, ⟨_, rfl, by decide⟩⟩

/-- Both ends of a buffer command, and each clause of the output lengths (BC-1, BC-6, BC-8, BC-12). -/
theorem test_witness_BufferCommands_OutputLengths : (keyed 16).params.wf = true ∧
    (after (.command .ebufEcb) (withInput (keyed 16) [])).engine.errCode = .ok ∧
    (after (.command .ebufEcb) (withInLen (keyed 16) 16)).engine.errCode ≠ .ok ∧
    (after (.command .dbufEcb) (withInput (keyed 16) (quadBytes cipherBC1))).engine.errCode = .ok ∧
    (after (.command .dbufEcb) (withInput (keyed 16) (quadBytes cipherBC1))).engine.outLen = 0 ∧
    (after (.command .dbufCbc) (withIv (withInput (keyed 32) cipherBC5) 16)).engine.errCode = .ok := by
  decide +kernel

/-- A host about to write `CMD`. -/
def issuing : State := withHost (fresh 16) [.write .bits32 0x40004 (.imm 1)]

/-- A command performed and the platform's reset, by name. -/
def resetting : State := withHost (keyed 16) [.reset]

/-- R33: the four events: `BUSY` set by a write, cleared by the engine step and by reset, `ERRCODE` and
`KEY_VALID` changed by `KEXP` and by reset. -/
theorem test_witness_OnlyTheNamedEvents :
    (∃ t, step issuing = .next t ∧ issuing.engine.busy = false ∧ t.engine.busy = true) ∧
    (∃ t, step ((fresh 16).latch 1) = .next t ∧ t.engine.busy = false ∧
      t.engine.keyValid ≠ ((fresh 16).latch 1).engine.keyValid) ∧
    (∃ t, step ((fresh 16).latch 7) = .next t ∧
      t.engine.errCode ≠ ((fresh 16).latch 7).engine.errCode) ∧
    (∃ t, step { resetting.latch 7 with delay := 3 } = .next t ∧ t.engine.busy = false ∧
      t.engine.keyValid ≠ resetting.engine.keyValid) := by
  refine ⟨⟨_, rfl, by decide, by decide⟩, ⟨_, rfl, by decide, by decide⟩, ⟨_, rfl, by decide⟩,
    ⟨_, rfl, by decide, by decide⟩⟩

/-- The schedule changes: by `KEXP` on the engine's turn, and by reset. -/
theorem test_witness_OnlyKexpKclrAndReset :
    (∃ t, step ((fresh 16).latch 1) = .next t ∧ t.engine.rk ≠ ((fresh 16).latch 1).engine.rk) ∧
    ∃ t, step resetting = .next t ∧ t.engine.rk ≠ resetting.engine.rk := by
  refine ⟨⟨_, rfl, by decide +kernel⟩, ⟨_, rfl, by decide +kernel⟩⟩

theorem byte_ne_succ (x : Byte) : x ≠ x + 1 := by revert x; decide

/-- A byte of `InBuf` changes: by an accepted write, and by reset, which draws it anew. -/
theorem test_witness_OnlyHostWritesAndResetChangeInBuf :
    let s := withHost (withInput (fresh 16) [0x00]) [.write .bits32 0x50000 (.imm 0x01000000)]
    let r := withHost (withInput (fresh 16) [Config.unwrittenByte 1 .inBuf 0 + 1]) [.reset]
    (s.params.wf = true ∧ ∃ t, step s = .next t ∧ t.inByte 0 ≠ s.inByte 0) ∧
    r.params.wf = true ∧ ∃ t, step r = .next t ∧ t.inByte 0 ≠ r.inByte 0 := by
  refine ⟨⟨by decide, _, rfl, by decide⟩, by decide, _, rfl, byte_ne_succ _⟩

/-- A byte of `OutBuf` changes: by `EBUF.ECB` (BC-1: byte 0 becomes 0x95), and by reset. -/
theorem test_witness_OnlyBufferCommandsAndResetChangeOutBuf :
    let z := keyed 16
    let s := State.latch { z with engine := { z.engine with outBuf := [(0, 0x00)] } } 5
    let r := withHost { z with engine := { z.engine with
      outBuf := [(0, Config.unwrittenByte 1 .outBuf 0 + 1)] } } [.reset]
    (s.params.wf = true ∧ ∃ t, step s = .next t ∧ t.outByte 0 ≠ s.outByte 0) ∧
    r.params.wf = true ∧ ∃ t, step r = .next t ∧ t.outByte 0 ≠ r.outByte 0 := by
  refine ⟨⟨by decide, _, rfl, by decide +kernel⟩, by decide, _, rfl, byte_ne_succ _⟩

/-- Every range of the register map, at its ends, with the smallest and the largest window. -/
theorem test_witness_HostRead_HostWrite : (fresh 16).params.wf = true ∧ (fresh 65536).params.wf = true ∧
    3 < 16 / 4 ∧ 16383 < 65536 / 4 ∧
    ((0x10010 : Nat) < 0x30000 ∧ ¬(0x10000 ≤ 0x10010 ∧ 0x10010 < 0x10000 + 16)) ∧
    locate ⟨0, 16⟩ 0x1000C = .inWord 3 ∧ locate ⟨0, 16⟩ 0x10010 = .reserved ∧
    locate ⟨0, 65536⟩ 0x1FFFC = .inWord 16383 ∧ locate ⟨0, 65536⟩ 0x2FFFC = .outWord 16383 ∧
    locate ⟨0, 16⟩ 0x00060 = .reserved ∧ locate ⟨0, 16⟩ 0x0005C = .reg .outLen ∧
    (fresh 16).engine.busy = false ∧ ((fresh 16).latch 0).engine.busy = true := by decide

/-- R35, R66: a write to `KEY2` changes that register alone. -/
theorem test_quadSet : keyK.set 0xffffffff 2 = ⟨0x00010203, 0x04050607, 0xffffffff, 0x0c0d0e0f⟩ := by decide

theorem test_witness_AReadAccess : (0x2FFFC : Nat) < 0x30000 ∧ 0x2FFFC % 4 = 0 ∧ (1 : Nat) ≠ 0 := by decide

theorem test_witness_CommandIssue : (fresh 16).engine.busy = false ∧
    ((fresh 16).latch 1).engine.busy = true := by decide

/-- A dropped write and a read while a command is in progress. -/
theorem test_witness_NoHostAccessReaches :
    let s := (fresh 16).latch 1
    s.engine.busy = true ∧ HostOp.write .bits32 0x40004 (.imm 2) ≠ .reset ∧
    (∃ t, hostOp (.write .bits32 0x40004 (.imm 2)) s = .next t) ∧
    ∃ t, hostOp (.read .bits32 0x40008 0) s = .next t := by
  refine ⟨by decide, by decide, ⟨_, rfl⟩, ⟨_, rfl⟩⟩

/-- The two sides of R64, at the ends of the region. -/
theorem test_witness_AccessesWithoutAMeaning : ((fresh 16).params.base ≤ 0x40000 ∧
    0x6FFFC < (fresh 16).params.base + 0x30000 ∧ (0x6FFFC - (fresh 16).params.base) % 4 = 0) ∧
    ¬(0x70000 < (fresh 16).params.base + 0x30000) ∧ ¬((fresh 16).params.base ≤ 0x3FFFC) := by decide

/-- A host with accesses, all meant; a loop whose next word has a meaning; and one whose next word has none. -/
theorem test_witness_AWellFormedHost : (issuing.hostAccessesWf ∧ issuing.host.prog ≠ []) ∧
    (getting 5).nextAccessOk ∧
    ((withHost (getting 5) [.readWords 0x60000 0 1]).setSweep (some ⟨0, 2⟩)).nextAccessOk ∧
    ¬(runningOut.engine.busy = true ∧ runningOut.delay = 0) ∧ ¬runningOut.nextAccessOk := by
  unfold State.hostAccessesWf State.nextAccessOk
  refine ⟨by decide, ?_, ?_, by decide, fun h => absurd (h _ rfl) (by decide)⟩ <;>
    (intro op h; cases h; decide)

theorem test_witness_HostAccessesDoNotRevealTheKey : HostOp.read .bits32 0x40010 0 ≠ .reset ∧
    ∃ t, hostOp (.read .bits32 0x40010 0) (keyed 16) = .next t := by
  exact ⟨by decide, _, rfl⟩

/-- A command in progress with three host steps to come, on a host with accesses left. -/
theorem test_witness_EveryAcceptedCommandIsPerformed :
    let s : State := { issuing.latch 1 with delay := 3 }
    s.engine.busy = true ∧ s.hostAccessesWf ∧ s.noReset ∧ ∃ t, runSteps s.delay s = .next t := by
  unfold State.hostAccessesWf State.noReset
  exact ⟨by decide, by decide, by decide, _, rfl⟩

/-- `getbuf` of no byte, of a whole window, and with `n` just below and just above the destinations. -/
theorem test_witness_Getbuf : (getting 0).params.wf = true ∧ (getting 0).engine.busy = false ∧
    (getting 0).host.sweep = none ∧ (getting 0).engine.outLen.toNat ≤ (getting 0).params.bufBytes ∧
    (getting 16).engine.outLen.toNat ≤ (getting 16).params.bufBytes ∧
    (getting 16).host.prog[(getting 16).host.pc]? =
      some (.read .bits32 ((getting 16).params.base + 0x0005C) 0) ∧
    (getting 16).host.prog[(getting 16).host.pc + 1]? =
      some (.readWords ((getting 16).params.base + 0x20000) 0 1) ∧
    (0 : Nat) < 1 ∧ 1 + (16 + 3) / 4 ≤ 5 := by decide

/-- The invariant, on a state with a loaded schedule and a command about to be performed. -/
theorem test_witness_EveryStepKeepsTheInvariant :
    ((keyed 16).latch 5).Inv ∧ ∃ t, step ((keyed 16).latch 5) = .next t := by
  refine ⟨⟨by decide, ⟨fun _ => ⟨_, rfl⟩, by decide⟩, ⟨by decide, fun _ => rfl⟩,
    ⟨by decide, fun i h => absurd h (by simp [keyed, fresh, State.resetWith, Engine.reset])⟩,
    Sparse.wf_nil, Sparse.below_nil _, Sparse.wf_nil, Sparse.below_nil _, Sparse.wf_nil,
    fun _ => rfl⟩, _, rfl⟩

theorem test_witness_TheInvariantHoldsAtReset : Params.wf ⟨0x40000, 65536⟩ = true := by decide

theorem test_witness_TheFieldLaws : (0x53 : Byte) ≠ 0x00 ∧ gmul 0x53 0xca = 0x01 := by decide

/-- A string `Pad` produces and one it does not. -/
theorem test_witness_Unpad : (pad []).length % 16 = 0 ∧ 16 ≤ (pad []).length ∧
    unpad (pad []) = some [] ∧ unpad (List.replicate 16 0x00) = none ∧
    unpad (List.replicate 16 0x11) = none := by decide

/-- Strings of one and of two blocks, the all-zero IV. -/
theorem test_witness_Ecb_Cbc : (quadBytes plainBlock).length % 16 = 0 ∧
    cipherBC5.length % 16 = 0 ∧ 1 < cipherBC5.length / 16 ∧ (quadBytes plainBlock).length = 16 ∧
    (Quad.mk 0 0 0 0).toBlock.toBytes = List.replicate 16 0x00 := by decide

/-- P2: the output of `EBUF.ECB` copied into the input window. -/
theorem test_witness_BuffersRoundTrip_ecb :
    let s := withInput (keyed 16) []
    let t := after (.command .ebufEcb) s
    let u := withInput s (outBytes t)
    s.params.wf = true ∧ s.engine.keyValid = true ∧ s.engine.inLen.toNat < s.params.bufBytes ∧
    u.params = s.params ∧ u.engine.keyValid = true ∧ u.engine.rk = s.engine.rk ∧
    u.engine.inLen = t.engine.outLen ∧
    ((List.range 16).all fun i => u.inByte i == t.outByte i) = true := by decide +kernel

/-- P3: the same for CBC. -/
theorem test_witness_BuffersRoundTrip_cbc :
    let s := withIv (withInput (keyed 32) plainBC5) 16
    let t := after (.command .ebufCbc) s
    let u := withInput s (outBytes t)
    s.params.wf = true ∧ s.engine.keyValid = true ∧ s.engine.inLen.toNat < s.params.bufBytes ∧
    s.engine.ivLen = 16 ∧ u.params = s.params ∧ u.engine.keyValid = true ∧
    u.engine.rk = s.engine.rk ∧ u.engine.inLen = t.engine.outLen ∧ u.engine.ivLen = 16 ∧
    u.engine.iv = s.engine.iv ∧
    ((List.range 32).all fun i => u.inByte i == t.outByte i) = true := by decide +kernel

/-- Two states that agree on the operands of `EBUF.ECB` and differ in the IV, which it does not read. -/
theorem test_witness_BufferResultsDependOnlyOnTheirOperands :
    let s := withInput (keyed 16) [0x41]
    let s' := withIv s 5
    isBuffer (.command .ebufEcb) = true ∧ s ≠ s' ∧ s.params = s'.params ∧
    s.engine.keyValid = s'.engine.keyValid ∧ s.engine.rk = s'.engine.rk ∧
    s.engine.inLen = s'.engine.inLen ∧ s.inByte 0 = s'.inByte 0 ∧ s.engine.inLen.toNat = 1 ∧
    (∃ t, exec .ebufEcb s = .next t) ∧ ∃ t, exec .ebufEcb s' = .next t := by
  refine ⟨by decide, fun h => ?_, rfl, rfl, rfl, rfl, rfl, rfl, ⟨_, rfl⟩, ⟨_, rfl⟩⟩
  exact absurd (congrArg (fun x => x.engine.ivLen) h) (by decide)

/-- R222 and R223 on a real string: BC-3's first block. -/
theorem test_blockAt : blockAt (ecbEnc (quadBytes plainBlock) (expand keyK.toBlock)) 0 =
    cipherBlock.toBlock := by decide +kernel

end Sys2Proof.Tests
end

section
/-! What performing a command does to each part of the engine: the window memories, the schedule with
`KEY_VALID`, the status code and the output, one lemma per part, all by the ways of `Effect`. -/

namespace Sys2Proof.Machine

/-- R10: what the constraints on the parameters say of the size of the windows. -/
theorem Params.wf_bufBytes {p : Params} (h : p.wf = true) :
    p.bufBytes % 16 = 0 ∧ 16 ≤ p.bufBytes ∧ p.bufBytes ≤ 65536 := by
  simp only [Params.wf, Params.bufWholeBlocks, Params.bufInRange, Bool.and_eq_true, beq_iff_eq,
    decide_eq_true_eq] at h
  obtain ⟨⟨-, whole⟩, range⟩ := h
  exact ⟨whole, range⟩

/-- R221: unpadding does not lengthen. -/
theorem unpad_length_le {d r : List Byte} (h : unpad d = some r) : r.length ≤ d.length := by
  obtain ⟨p, -, -, -, rfl, -⟩ := unpad_some h
  exact List.length_take_le' _ _

/-- R228: the result of an encrypting buffer command fits the window. -/
theorem pad_input_length_le {s : State} (hp : s.params.wf = true)
    (h : s.engine.inLen.toNat < s.params.bufBytes) :
    (pad s.input).length % 16 = 0 ∧ (pad s.input).length ≤ s.params.bufBytes := by
  obtain ⟨whole, -, -⟩ := Params.wf_bufBytes hp
  rw [pad_length, State.input_length]
  omega

/-- R227: `OUT_LEN` holds the length of a committed result that a window can hold. -/
theorem commitOutput_outLen_toNat (e : Engine) {r : List Byte} (h : r.length ≤ 65536) :
    (e.commitOutput r).outLen.toNat = r.length := by
  rw [Engine.commitOutput_outLen, BitVec.toNat_ofNat]
  omega

variable {s t : State} {d : Decoded}

theorem Effect.busy (h : Effect s d t) : t.engine.busy = false := by
  cases h <;> rfl

theorem Effect.delay (h : Effect s d t) : t.delay = s.delay := by
  rw [h.withEngine]; rfl

theorem Effect.resets (h : Effect s d t) : t.resets = s.resets := by
  rw [h.withEngine]; rfl

theorem Effect.vars (h : Effect s d t) : t.host.vars = s.host.vars := by
  rw [h.withEngine]; rfl

/-- R108: no command writes the input window. -/
theorem Effect.inBuf (h : Effect s d t) : t.engine.inBuf = s.engine.inBuf := by
  cases h <;> rfl

/-- R140, R141: a command leaves the schedule and `KEY_VALID` alone, or it is `KEXP` or `KCLR` and leaves the
expansion of a key or no key. -/
theorem Effect.schedule_cases (h : Effect s d t) :
    (t.engine.rk = s.engine.rk ∧ t.engine.keyValid = s.engine.keyValid) ∨
    ((d = .command .kexp ∨ d = .command .kclr) ∧
      ((t.engine.rk = Schedule.zero ∧ t.engine.keyValid = false) ∨
        ((∃ k, t.engine.rk = expand k) ∧ t.engine.keyValid = true))) := by
  cases h with
  | kexpFails _ => exact .inr ⟨.inl rfl, .inl ⟨rfl, rfl⟩⟩
  | kexp _ => exact .inr ⟨.inl rfl, .inr ⟨⟨_, rfl⟩, rfl⟩⟩
  | kclr => exact .inr ⟨.inr rfl, .inl ⟨rfl, rfl⟩⟩
  | _ => exact .inl ⟨rfl, rfl⟩

/-- R46: every command keeps the schedule in accord with `KEY_VALID`. -/
theorem Effect.scheduleOk (h : Effect s d t) (hs : s.engine.scheduleOk) : t.engine.scheduleOk := by
  rcases h.schedule_cases with ⟨rk, valid⟩ | ⟨-, ⟨rk, valid⟩ | ⟨expanded, valid⟩⟩
  · simpa only [Engine.scheduleOk, rk, valid] using hs
  · exact ⟨fun one => by simp [valid] at one, fun _ => rk⟩
  · exact ⟨fun _ => expanded, fun zero => by simp [valid] at zero⟩

/-- R272, R273: when the key is checked first, and no later check reports its code, the error reported is
`InvalidKeyLength` exactly without a loaded key. -/
theorem firstError_keyCheck {e : Engine} {l : List (Option Code)} {c : Code}
    (others : some .invalidKeyLength ∉ l) (h : firstError (e.keyCheck :: l) = some c) :
    c = .invalidKeyLength ↔ e.keyValid = false := by
  cases valid : e.keyValid with
  | false => simpa [Engine.keyCheck, valid, eq_comm] using h
  | true =>
    have mem : some c ∈ l := firstError_mem (by simpa [Engine.keyCheck, valid] using h)
    simpa using fun hc : c = .invalidKeyLength => others (hc ▸ mem)

@[simp] theorem ivCheck_ne_key (e : Engine) : some .invalidKeyLength ≠ e.ivCheck := by
  simp [Engine.ivCheck]

@[simp] theorem blkLenCheck_ne_key (e : Engine) : some .invalidKeyLength ≠ e.blkLenCheck := by
  simp [Engine.blkLenCheck]

@[simp] theorem encryptBoundCheck_ne_key (e : Engine) (p : Params) :
    some .invalidKeyLength ≠ e.encryptBoundCheck p := by
  simp [Engine.encryptBoundCheck]

@[simp] theorem decryptBoundCheck_ne_key (e : Engine) (p : Params) :
    some .invalidKeyLength ≠ e.decryptBoundCheck p := by
  simp [Engine.decryptBoundCheck]

@[simp] theorem wholeBlocksCheck_ne_key (e : Engine) :
    some .invalidKeyLength ≠ e.wholeBlocksCheck := by
  simp [Engine.wholeBlocksCheck]

/-- R106: a `*_BADMODE` value reports `InvalidKeyLength` exactly without a loaded key. -/
theorem badModeError_eq_key (e : Engine) :
    e.badModeError = .invalidKeyLength ↔ e.keyValid = false := by
  cases valid : e.keyValid <;> simp [Engine.badModeError, Engine.keyCheck, valid]

/-- R272: a command ends `OK`, as `IllegalCommand`, or with an error that is `InvalidKeyLength` exactly when it
leaves no key. -/
theorem Effect.errCode_cases (h : Effect s d t) :
    t.engine.errCode = .ok ∨ t.engine.errCode = .illegalCommand ∨
      (t.engine.errCode = .invalidKeyLength ↔ t.engine.keyValid = false) := by
  cases h with
  | illegal => exact .inr (.inl rfl)
  | kexpFails _ => exact .inr (.inr ⟨fun _ => rfl, fun _ => rfl⟩)
  | eblkFails e | dblkFails e | ebufEcbFails e | ebufCbcFails e | dbufEcbFails e | dbufCbcFails e =>
    exact .inr (.inr (firstError_keyCheck (by simp) e))
  | dbufEcbPadding e _ => exact .inr (.inr (by simp [((dbufEcbError_eq_none s).1 e).1]))
  | dbufCbcPadding e _ => exact .inr (.inr (by simp [((dbufCbcError_eq_none s).1 e).1]))
  | ebufBadMode | dbufBadMode => exact .inr (.inr (badModeError_eq_key s.engine))
  | _ => exact .inl rfl

/-- Every command leaves a status of spec/95_test_vectors.md section 1. -/
theorem Effect.statusOk (h : Effect s d t) : t.engine.statusOk := by
  rcases h.errCode_cases with code | code | code
  · simp [Engine.statusOk, code]
  · simp [Engine.statusOk, code]
  · refine ⟨code.1, fun keyed => ?_⟩
    by_contra invalid
    have := code.2 (by simpa using invalid)
    simp [this] at keyed

/-- R227: a command writes no output byte and keeps `OUT_LEN` or sets it to 0, or it is a buffer command that
completes OK with a result the window holds. -/
theorem Effect.output_cases (h : Effect s d t) (hp : s.params.wf = true) :
    (t.engine.outBuf = s.engine.outBuf ∧
      (t.engine.outLen = s.engine.outLen ∨ t.engine.outLen = 0)) ∨
    (isBuffer d = true ∧ ∃ r : List Byte, r.length ≤ s.params.bufBytes ∧
      t = s.completeOk (s.engine.commitOutput r)) := by
  cases h with
  | ebufEcb e =>
    obtain ⟨-, bound⟩ := (ebufEcbError_eq_none s).1 e
    obtain ⟨whole, fits⟩ := pad_input_length_le hp bound
    exact .inr ⟨rfl, _, by rwa [ecbEnc_length _ whole], rfl⟩
  | ebufCbc e =>
    obtain ⟨-, -, bound⟩ := (ebufCbcError_eq_none s).1 e
    obtain ⟨whole, fits⟩ := pad_input_length_le hp bound
    exact .inr ⟨rfl, _, by rwa [cbcEnc_length _ _ whole], rfl⟩
  | dbufEcb e u =>
    obtain ⟨-, bound, -, whole⟩ := (dbufEcbError_eq_none s).1 e
    rw [← s.input_length] at bound whole
    exact .inr ⟨rfl, _, (unpad_length_le u).trans (by rwa [ecbDec_length _ whole]), rfl⟩
  | dbufCbc e u =>
    obtain ⟨-, -, bound, -, whole⟩ := (dbufCbcError_eq_none s).1 e
    rw [← s.input_length] at bound whole
    exact .inr ⟨rfl, _, (unpad_length_le u).trans (by rwa [cbcDec_length _ _ whole]), rfl⟩
  | nop | kexpFails _ | kexp _ | kclr | eblkFails _ | dblkFails _ | eblk _ | dblk _ | illegal =>
    exact .inl ⟨rfl, .inl rfl⟩
  | _ => exact .inl ⟨rfl, .inr rfl⟩

/-- R44, R227: every command leaves `OUT_LEN` within the window, with every byte below it written. -/
theorem Effect.outputOk (h : Effect s d t) (hp : s.params.wf = true)
    (hs : s.engine.outputOk s.params) : t.engine.outputOk s.params := by
  rcases h.output_cases hp with ⟨same, len | len⟩ | ⟨-, r, fits, rfl⟩
  · simpa only [Engine.outputOk, same, len] using hs
  · simp [Engine.outputOk, len]
  · have len := commitOutput_outLen_toNat s.engine (fits.trans (Params.wf_bufBytes hp).2.2)
    simp only [Engine.outputOk, State.completeOk_engine, Engine.complete_outLen, len,
      Engine.complete_outBuf, Engine.commitOutput_outBuf, Sparse.read_writeAll]
    exact ⟨fits, fun i hi => by simp [hi]⟩

/-- R44: every command keeps the output memory in canonical form and inside the window. -/
theorem Effect.outBuf_wf_below (h : Effect s d t) (hp : s.params.wf = true)
    (wf : Memory.wf s.engine.outBuf) (below : Sparse.below s.engine.outBuf s.params.bufBytes) :
    Memory.wf t.engine.outBuf ∧ Sparse.below t.engine.outBuf s.params.bufBytes := by
  rcases h.output_cases hp with ⟨same, -⟩ | ⟨-, r, fits, rfl⟩
  · rw [same]
    exact ⟨wf, below⟩
  · exact ⟨Sparse.writeAll_wf wf 0 r, Sparse.writeAll_below below r (by simpa using fits)⟩

end Sys2Proof.Machine
end

section
/-! What a step can do to the engine, said once in the terms of the statements of spec/10_state.md: the engine's
own turn, an accepted command, any other host step, or the platform's reset. -/

namespace Sys2Proof.Machine

/-- R62: a register the map lists stands at its offset. -/
theorem offset_of_registerMap {n : Nat} {r : RegName} (h : registerMap[n]? = some r) :
    r.offset = 4 * n := by
  obtain ⟨hn, rfl⟩ := List.getElem?_eq_some_iff.1 h
  exact (by decide : ∀ n : Fin 24, registerMap[n].offset = 4 * n.val) ⟨n, hn⟩

/-- R62: an aligned offset that names a register is its offset. -/
theorem offset_of_locate_reg {p : Params} {off : Nat} {r : RegName} (aligned : off % 4 = 0)
    (h : locate p off = .reg r) : off = r.offset := by
  unfold locate at h
  split at h
  · rename_i named
    cases h
    rw [offset_of_registerMap named]
    omega
  · split at h
    · cases h
    · split at h <;> cases h

/-- R61, R64: a 32-bit access with a meaning is made at `BASE` plus its offset, which is aligned. -/
theorem accessOffset_addr {p : Params} {addr off : Nat}
    (h : accessOffset p .bits32 addr = .ok off) : addr = p.base + off ∧ off % 4 = 0 := by
  obtain ⟨meant, rfl⟩ := accessOffset_ok.1 h
  simp only [accessWf, Bool.and_eq_true, decide_eq_true_eq, beq_iff_eq] at meant
  omega

/-- R62, R63: an aligned offset that names a word of `IN_BUF` is the word's, and begins inside the window,
whatever `BUF_BYTES` is. -/
theorem offset_of_locate_inWord {p : Params} {off k : Nat} (aligned : off % 4 = 0)
    (h : locate p off = .inWord k) : off = 0x10000 + 4 * k ∧ 4 * k < p.bufBytes := by
  unfold locate at h
  split at h
  · cases h
  · split at h
    · simp only [inBufOffset, Location.inWord.injEq] at *
      omega
    · split at h <;> cases h

/-- The inversion lemma of `step` for the engine: a step is the engine's own, the platform's reset, or a host
step that keeps the status, the schedule and the output; the last is an accepted command, or writes at most
operands, and of `InBuf` at most a word. -/
theorem step_cases {s t : State} (h : step s = .next t) :
    (s.engineTurn = true ∧ Effect s (decode s.engine.cmd) t) ∨
    (s.engineTurn = false ∧ s.nextOp = some .reset ∧ t.engine = Engine.reset ∧ t.delay = 0) ∨
    (s.engineTurn = false ∧ t.resets = s.resets ∧
      (t.engine.keyValid = s.engine.keyValid ∧ t.engine.errCode = s.engine.errCode ∧
        t.engine.rk = s.engine.rk ∧ t.engine.outLen = s.engine.outLen ∧
        t.engine.outBuf = s.engine.outBuf) ∧
      ((s.engine.busy = false ∧ ∃ v,
          s.nextOp = some (.write .bits32 (s.params.base + 0x00004) v) ∧
          t.engine = { s.engine with cmd := s.hostVal v, busy := true }) ∨
        (t.engine.busy = s.engine.busy ∧ t.delay = s.delay - 1 ∧
          (t.engine.inBuf = s.engine.inBuf ∨ (s.engine.busy = false ∧ ∃ k v,
            s.nextOp = some (.write .bits32 (s.params.base + (0x10000 + 4 * k)) v) ∧
            4 * k < s.params.bufBytes ∧ t.engine.inBuf =
              Sparse.writeAll s.engine.inBuf (4 * k) (Col.ofWord (s.hostVal v)).toBytes))))) := by
  rcases step_next h with ⟨turn, effect⟩ | ⟨turn, op, hop, e⟩ | ⟨turn, -, rfl⟩
  · exact .inl ⟨turn, effect⟩
  · rcases hostOp_next e with ⟨addr, v, off, rfl, meant, rfl⟩ | ⟨addr, x, off, -, -, rfl⟩ |
      ⟨addr, n, x, -, loop⟩ | ⟨x, mask, target, -, n, rfl⟩ | ⟨rfl, rfl⟩
    · obtain ⟨rfl, aligned⟩ := accessOffset_addr meant
      refine .inr (.inr ⟨turn, ?_⟩)
      rcases s.tick.hostWrite_cases off (s.tick.hostVal v) with
        h | ⟨idle, named, h⟩ |
        ⟨idle, e, h, busy, -, keyValid, errCode, -, outLen, outBuf, rk, inBuf⟩ <;> rw [h]
      · exact ⟨rfl, ⟨rfl, rfl, rfl, rfl, rfl⟩, .inr ⟨rfl, rfl, .inl rfl⟩⟩
      · obtain rfl : off = 0x00004 := offset_of_locate_reg aligned named
        exact ⟨rfl, ⟨rfl, rfl, rfl, rfl, rfl⟩, .inl ⟨idle, v, hop, rfl⟩⟩
      · refine ⟨rfl, ⟨keyValid, errCode, rk, outLen, outBuf⟩, .inr ⟨busy, rfl, inBuf.imp_right ?_⟩⟩
        rintro ⟨k, named, written⟩
        obtain ⟨rfl, inside⟩ := offset_of_locate_inWord aligned named
        exact ⟨idle, k, v, hop, inside, written⟩
    · rw [State.readInto_eq]
      exact .inr (.inr ⟨turn, rfl, ⟨rfl, rfl, rfl, rfl, rfl⟩, .inr ⟨rfl, rfl, .inl rfl⟩⟩)
    · obtain ⟨engine, -, delay, resets, -⟩ := readWordsTurn_frame loop
      rw [engine]
      exact .inr (.inr ⟨turn, resets, ⟨rfl, rfl, rfl, rfl, rfl⟩, .inr ⟨rfl, delay, .inl rfl⟩⟩)
    · exact .inr (.inr ⟨turn, rfl, ⟨rfl, rfl, rfl, rfl, rfl⟩, .inr ⟨rfl, rfl, .inl rfl⟩⟩)
    · exact .inr (.inl ⟨turn, hop, rfl, rfl⟩)
  · exact .inr (.inr ⟨turn, rfl, ⟨rfl, rfl, rfl, rfl, rfl⟩, .inr ⟨rfl, rfl, .inl rfl⟩⟩)

/-- On the host's turn it is not the engine's, in the words of the statements. -/
theorem not_engineTurn {s : State} (h : s.engineTurn = false) :
    ¬(s.engine.busy = true ∧ s.delay = 0) :=
  fun turn => by simp [(s.engineTurn_iff).2 turn] at h

/-- R63, R66: a write to word `k` of `IN_BUF` leaves every byte outside the word as it was. -/
theorem inByte_eq_of_other_word {s t : State} {k : Nat} {w : Word} (resets : t.resets = s.resets)
    (written : t.engine.inBuf = Sparse.writeAll s.engine.inBuf (4 * k) (Col.ofWord w).toBytes)
    {i : Nat} (outside : i / 4 ≠ k) : t.inByte i = s.inByte i := by
  simp only [State.inByte, windowByte, resets, written, Sparse.read_writeAll]
  rw [if_neg (by rw [Col.toBytes_length]; omega)]

/-- R43: an input window that no byte was written to reads as before. -/
theorem inByte_congr {s t : State} (inBuf : t.engine.inBuf = s.engine.inBuf)
    (resets : t.resets = s.resets) (i : Nat) : t.inByte i = s.inByte i := by
  rw [State.inByte, State.inByte, inBuf, resets]

/-- R44: an output window that no byte was written to reads as before. -/
theorem outByte_congr {s t : State} (outBuf : t.engine.outBuf = s.engine.outBuf)
    (resets : t.resets = s.resets) (i : Nat) : t.outByte i = s.outByte i := by
  rw [State.outByte, State.outByte, outBuf, resets]

end Sys2Proof.Machine
end

section
/-! The invariant: it holds at reset, and every step keeps each of its parts. -/

namespace Sys2Proof.Machine

variable {s t : State}

/-- R46 at reset: no key and an all-zero schedule. -/
theorem reset_scheduleOk : Engine.reset.scheduleOk :=
  ⟨fun valid => Bool.noConfusion valid, fun _ => rfl⟩

theorem reset_statusOk : Engine.reset.statusOk := by
  simp [Engine.statusOk, Engine.reset]

/-- R42 at reset: `OUT_LEN` is 0. -/
theorem reset_outputOk (p : Params) : Engine.reset.outputOk p := by
  simp [Engine.outputOk, Engine.reset]

theorem step_scheduleOk (h : step s = .next t) (hs : s.engine.scheduleOk) :
    t.engine.scheduleOk := by
  rcases step_cases h with
    ⟨-, effect⟩ | ⟨-, -, engine, -⟩ | ⟨-, -, ⟨keyValid, -, rk, -⟩, -⟩
  · exact effect.scheduleOk hs
  · rw [engine]; exact reset_scheduleOk
  · simpa only [Engine.scheduleOk, rk, keyValid] using hs

theorem step_statusOk (h : step s = .next t) (hs : s.engine.statusOk) : t.engine.statusOk := by
  rcases step_cases h with
    ⟨-, effect⟩ | ⟨-, -, engine, -⟩ | ⟨-, -, ⟨keyValid, errCode, -⟩, -⟩
  · exact effect.statusOk
  · rw [engine]; exact reset_statusOk
  · simpa only [Engine.statusOk, errCode, keyValid] using hs

theorem step_outputOk (h : step s = .next t) (hp : s.params.wf = true)
    (hs : s.engine.outputOk s.params) : t.engine.outputOk s.params := by
  rcases step_cases h with
    ⟨-, effect⟩ | ⟨-, -, engine, -⟩ | ⟨-, -, ⟨-, -, -, outLen, outBuf⟩, -⟩
  · exact effect.outputOk hp hs
  · rw [engine]; exact reset_outputOk s.params
  · simpa only [Engine.outputOk, outLen, outBuf] using hs

/-- R43: every step keeps the input memory in canonical form and inside the window. -/
theorem step_inBuf_wf_below (h : step s = .next t) (hp : s.params.wf = true)
    (wf : Memory.wf s.engine.inBuf) (below : Sparse.below s.engine.inBuf s.params.bufBytes) :
    Memory.wf t.engine.inBuf ∧ Sparse.below t.engine.inBuf s.params.bufBytes := by
  rcases step_cases h with ⟨-, effect⟩ | ⟨-, -, engine, -⟩ |
    ⟨-, -, -, ⟨-, v, -, engine⟩ | ⟨-, -, same | ⟨-, k, v, -, inside, written⟩⟩⟩
  · rw [effect.inBuf]; exact ⟨wf, below⟩
  · rw [engine]; exact ⟨Sparse.wf_nil, Sparse.below_nil _⟩
  · rw [engine]; exact ⟨wf, below⟩
  · rw [same]; exact ⟨wf, below⟩
  · have whole := (Params.wf_bufBytes hp).1
    rw [written]
    exact ⟨Sparse.writeAll_wf wf _ _,
      Sparse.writeAll_below below _ (by rw [Col.toBytes_length]; omega)⟩

/-- R44: every step keeps the output memory in canonical form and inside the window. -/
theorem step_outBuf_wf_below (h : step s = .next t) (hp : s.params.wf = true)
    (wf : Memory.wf s.engine.outBuf) (below : Sparse.below s.engine.outBuf s.params.bufBytes) :
    Memory.wf t.engine.outBuf ∧ Sparse.below t.engine.outBuf s.params.bufBytes := by
  rcases step_cases h with
    ⟨-, effect⟩ | ⟨-, -, engine, -⟩ | ⟨-, -, ⟨-, -, -, -, outBuf⟩, -⟩
  · exact effect.outBuf_wf_below hp wf below
  · rw [engine]; exact ⟨Sparse.wf_nil, Sparse.below_nil _⟩
  · rw [outBuf]; exact ⟨wf, below⟩

/-- Log entry 6: after every step, host steps are owed only while a command is in progress. -/
theorem step_delayIdle (h : step s = .next t) (hs : s.engine.busy = false → s.delay = 0)
    (idle : t.engine.busy = false) : t.delay = 0 := by
  rcases step_cases h with ⟨turn, effect⟩ | ⟨-, -, -, delay⟩ |
    ⟨-, -, -, ⟨-, v, -, engine⟩ | ⟨busy, delay, -⟩⟩
  · rw [effect.delay]; exact ((s.engineTurn_iff).1 turn).2
  · exact delay
  · simp [engine] at idle
  · rw [delay, hs (busy ▸ idle)]

/-- A read keeps the host's variables in canonical form. -/
theorem readInto_varsWf (off x : Nat) (hs : Sparse.wf s.host.vars) :
    Sparse.wf (s.readInto off x).host.vars := by
  rw [State.readInto_eq]
  exact Sparse.write_wf hs _ _

/-- A write access changes no variable of the host. -/
@[simp] theorem hostWrite_vars (s : State) (off : Nat) (v : Word) :
    (s.hostWrite off v).host.vars = s.host.vars := by
  rcases s.hostWrite_cases off v with h | ⟨-, -, h⟩ | ⟨-, e, h, -⟩ <;> rw [h] <;> rfl

/-- Every host operation keeps the host's variables in canonical form. -/
theorem hostOp_varsWf {op : HostOp} (h : hostOp op s = .next t) (hs : Sparse.wf s.host.vars) :
    Sparse.wf t.host.vars := by
  rcases hostOp_next h with ⟨addr, v, off, -, -, rfl⟩ | ⟨addr, x, off, -, -, rfl⟩ |
    ⟨addr, n, x, -, loop⟩ | ⟨x, mask, target, -, n, rfl⟩ | ⟨-, rfl⟩
  · simpa using hs
  · exact readInto_varsWf off x hs
  · rcases readWordsTurn_next loop with ⟨off, -, -, rfl⟩ | ⟨-, rfl⟩
    · rw [State.sweepOn_vars]
      exact readInto_varsWf off _ hs
    · exact hs
  · exact hs
  · exact hs

/-- Every step keeps the host's variables in canonical form. -/
theorem step_varsWf (h : step s = .next t) (hs : Sparse.wf s.host.vars) :
    Sparse.wf t.host.vars := by
  rcases step_next h with ⟨-, effect⟩ | ⟨-, op, -, e⟩ | ⟨-, -, rfl⟩
  · rw [effect.vars]; exact hs
  · exact hostOp_varsWf e hs
  · exact hs

/-- Settles O41: each part of the invariant is kept by every step. -/
theorem everyStepKeepsTheInvariant : Obligations.EveryStepKeepsTheInvariant := by
  intro s t hs h
  have params := (step_params_prog h).1
  have inBuf := step_inBuf_wf_below h hs.params hs.inBufWf hs.inBufBelow
  have outBuf := step_outBuf_wf_below h hs.params hs.outBufWf hs.outBufBelow
  exact
    { params := params ▸ hs.params
      schedule := step_scheduleOk h hs.schedule
      status := step_statusOk h hs.status
      output := params ▸ step_outputOk h hs.params hs.output
      inBufWf := inBuf.1
      inBufBelow := params ▸ inBuf.2
      outBufWf := outBuf.1
      outBufBelow := params ▸ outBuf.2
      varsWf := step_varsWf h hs.varsWf
      delayIdle := step_delayIdle h hs.delayIdle }

/-- Settles O40: at reset every part of the invariant holds for any allowed parameters. -/
theorem theInvariantHoldsAtReset : Obligations.TheInvariantHoldsAtReset := by
  refine ⟨by decide, rfl, fun p hp => ?_⟩
  exact
    { params := hp
      schedule := reset_scheduleOk
      status := reset_statusOk
      output := reset_outputOk p
      inBufWf := Sparse.wf_nil
      inBufBelow := Sparse.below_nil _
      outBufWf := Sparse.wf_nil
      outBufBelow := Sparse.below_nil _
      varsWf := Sparse.wf_nil
      delayIdle := fun _ => rfl }

end Sys2Proof.Machine
end

section
/-! Who changes what: the status, the schedule and the two windows over every step, each from what a step can do
to the engine. -/

namespace Sys2Proof.Machine

/-- Settles O25: by what the step was, the engine's own, a reset or another step of the host, each change of the
status has the event named for it. -/
theorem onlyTheNamedEventsWriteTheStatus : Obligations.OnlyTheNamedEventsWriteTheStatus := by
  intro s t h
  rcases step_cases h with ⟨turn, effect⟩ | ⟨turn, op, engine, -⟩ |
    ⟨-, -, ⟨keyValid, errCode, -⟩, issue⟩
  · have turn' := (s.engineTurn_iff).1 turn
    refine ⟨fun idle => by simp [idle] at turn', fun _ _ => .inl turn', fun _ => .inl turn',
      fun changed => ?_⟩
    rcases effect.schedule_cases with ⟨-, same⟩ | ⟨named, -⟩
    · exact absurd same changed
    · exact .inl ⟨turn', named⟩
  · have resets := And.intro (not_engineTurn turn) op
    exact ⟨fun _ busy => by simp [engine, Engine.reset] at busy, fun _ _ => .inr resets,
      fun _ => .inr resets, fun _ => .inr resets⟩
  · refine ⟨fun idle busy' => ?_, fun busy' idle' => ?_, fun changed => absurd errCode changed,
      fun changed => absurd keyValid changed⟩
    · rcases issue with ⟨-, v, op, engine⟩ | ⟨busy, -⟩
      · exact ⟨v, op, engine⟩
      · simp [busy, idle] at busy'
    · rcases issue with ⟨idle, -⟩ | ⟨busy, -⟩
      · simp [idle] at busy'
      · simp [busy, busy'] at idle'

/-- Settles O26: a command that changes the schedule is `KEXP` or `KCLR`, and no host step but reset does. -/
theorem onlyKexpKclrAndResetChangeTheSchedule :
    Obligations.OnlyKexpKclrAndResetChangeTheSchedule := by
  intro s t h changed
  rcases step_cases h with ⟨turn, effect⟩ | ⟨turn, op, -⟩ | ⟨-, -, ⟨-, -, same, -⟩, -⟩
  · obtain ⟨busy, due⟩ := (s.engineTurn_iff).1 turn
    rcases effect.schedule_cases with ⟨same, -⟩ | ⟨named, -⟩
    · exact absurd same changed
    · exact .inl ⟨busy, due, named⟩
  · exact .inr ⟨not_engineTurn turn, op⟩
  · exact absurd same changed

/-- Settles O27: no command writes `InBuf`, and a host write to one of its words leaves the other bytes. -/
theorem onlyHostWritesAndResetChangeInBuf : Obligations.OnlyHostWritesAndResetChangeInBuf := by
  intro s t i hp h changed
  rcases step_cases h with ⟨-, effect⟩ | ⟨turn, op, -⟩ | ⟨turn, resets, -, ⟨-, v, -, engine⟩ |
    ⟨-, -, same | ⟨idle, k, v, op, inside, written⟩⟩⟩
  · exact absurd (inByte_congr effect.inBuf effect.resets i) changed
  · exact ⟨not_engineTurn turn, .inl op⟩
  · exact absurd (inByte_congr (by rw [engine]) resets i) changed
  · exact absurd (inByte_congr same resets i) changed
  · obtain rfl : i / 4 = k := by
      by_contra outside
      exact changed (inByte_eq_of_other_word resets written outside)
    have whole := (Params.wf_bufBytes hp).1
    exact ⟨not_engineTurn turn, .inr ⟨idle, by omega, v, by rw [op, Nat.add_assoc]⟩⟩

/-- A byte that a commit changes lies below the new `OUT_LEN`, which is the length of the result. -/
theorem lt_outLen_of_outByte_commit_ne {s : State} {r : List Byte} (fits : r.length ≤ 65536) {i : Nat}
    (changed : (s.completeOk (s.engine.commitOutput r)).outByte i ≠ s.outByte i) :
    i < (s.engine.commitOutput r).outLen.toNat := by
  rw [commitOutput_outLen_toNat _ fits]
  by_contra beyond
  simp [State.outByte_commit, List.getElem?_eq_none (Nat.not_lt.1 beyond)] at changed

/-- Settles O28: a command that writes output bytes commits the result of a buffer command, and no host step but
reset writes one. -/
theorem onlyBufferCommandsAndResetChangeOutBuf :
    Obligations.OnlyBufferCommandsAndResetChangeOutBuf := by
  intro s t i hp h changed
  rcases step_cases h with
    ⟨turn, effect⟩ | ⟨turn, op, -⟩ | ⟨-, resets, ⟨-, -, -, -, same⟩, -⟩
  · obtain ⟨busy, due⟩ := (s.engineTurn_iff).1 turn
    rcases effect.output_cases hp with ⟨same, -⟩ | ⟨buffer, r, fits, rfl⟩
    · exact absurd (outByte_congr same effect.resets i) changed
    · have window := (Params.wf_bufBytes hp).2.2
      exact .inl ⟨busy, due, buffer, rfl,
        lt_outLen_of_outByte_commit_ne (fits.trans window) changed⟩
  · exact .inr ⟨not_engineTurn turn, op⟩
  · exact absurd (outByte_congr same resets i) changed

end Sys2Proof.Machine
end

section
/-! The host's view does not depend on the key registers or the schedule (R35, R45): every operation of the host
goes alike in `s` and in `s.withEngine e`, where `e` differs from the engine of `s` only in them. -/

namespace Sys2Proof.Machine

variable {s t : State} {e : Engine}

/-- R35, R45, R65: no read gives a bit of the key or of the schedule. -/
theorem hostRead_of_alike (alike : e = { s.engine with key := e.key, rk := e.rk }) (off : Nat) :
    (s.withEngine e).hostRead off = s.hostRead off := by
  generalize e.key = k, e.rk = rk at alike
  subst alike
  simp only [State.hostRead, State.withEngine_params]
  cases locate s.params off with
  | reg r => cases r <;> rfl
  | _ => rfl

theorem readInto_of_alike (alike : e = { s.engine with key := e.key, rk := e.rk }) (off x : Nat) :
    (s.withEngine e).readInto off x = (s.readInto off x).withEngine e := by
  rw [State.readInto_eq, State.readInto_eq, hostRead_of_alike alike]
  rfl

theorem sweepOn_withEngine (s : State) (e : Engine) (w : Sweep) :
    (s.withEngine e).sweepOn w = (s.sweepOn w).withEngine e := by
  unfold State.sweepOn
  split <;> rfl

/-- R66: a write lands alike; only one to `KEY0..3` meets the key. -/
theorem hostWrite_of_alike (alike : e = { s.engine with key := e.key, rk := e.rk }) (off : Nat)
    (v : Word) :
    ∃ k, (s.withEngine e).hostWrite off v = (s.hostWrite off v).withEngine
      { (s.hostWrite off v).engine with key := k, rk := e.rk } := by
  have same : e.busy = s.engine.busy := by rw [alike]
  cases busy : s.engine.busy with
  | true =>
    rw [State.hostWrite_busy busy, State.hostWrite_busy (s := s.withEngine e) (same.trans busy)]
    exact ⟨e.key, by rw [← alike]⟩
  | false =>
    rw [State.hostWrite_idle busy, State.hostWrite_idle (s := s.withEngine e) (same.trans busy),
      State.withEngine_params]
    generalize e.key = k, e.rk = rk at alike ⊢
    subst alike
    cases locate s.params off with
    | reg r =>
      cases r with
      | key j => exact ⟨k.set v j, rfl⟩
      | _ => exact ⟨k, rfl⟩
    | _ => exact ⟨k, rfl⟩

/-- R113: a turn of a `getbuf` loop goes alike. -/
theorem readWordsTurn_of_alike (alike : e = { s.engine with key := e.key, rk := e.rk })
    {addr n x : Nat} (h : readWordsTurn addr n x s = .next t) :
    readWordsTurn addr n x (s.withEngine e) = .next (t.withEngine e) := by
  have sweep : (s.withEngine e).sweepAt n = s.sweepAt n := rfl
  rcases readWordsTurn_next h with ⟨off, more, meant, rfl⟩ | ⟨done, rfl⟩
  · simp only [readWordsTurn, sweep, State.withEngine_params, if_pos more, meant,
      readInto_of_alike alike, sweepOn_withEngine]
  · simp only [readWordsTurn, sweep, if_neg (Nat.not_lt.2 done)]
    rfl

/-- Every operation of the host but reset goes alike, and puts nothing of the schedule anywhere else. -/
theorem hostOp_of_alike (alike : e = { s.engine with key := e.key, rk := e.rk }) {op : HostOp}
    (notReset : op ≠ .reset) (h : hostOp op s = .next t) :
    ∃ k, hostOp op (s.withEngine e) =
      .next (t.withEngine { t.engine with key := k, rk := e.rk }) := by
  cases op with
  | write w addr v =>
    have val : (s.withEngine e).hostVal v = s.hostVal v := by cases v <;> rfl
    simp only [hostOp, State.withEngine_params, val] at h ⊢
    split at h
    · cases h
    · rename_i off meant
      cases h
      obtain ⟨k, written⟩ := hostWrite_of_alike alike off (s.hostVal v)
      exact ⟨k, by rw [written]; rfl⟩
  | read w addr x =>
    simp only [hostOp, State.withEngine_params, readInto_of_alike alike] at h ⊢
    split at h
    · cases h
    · rename_i off meant
      cases h
      refine ⟨e.key, ?_⟩
      rw [State.advance_engine, State.readInto_engine, ← alike]
      rfl
  | readWords addr n x =>
    refine ⟨e.key, ?_⟩
    rw [(readWordsTurn_frame h).1, ← alike]
    exact readWordsTurn_of_alike alike h
  | bnz x mask target =>
    have var : (s.withEngine e).hostVar x = s.hostVar x := rfl
    refine ⟨e.key, ?_⟩
    simp only [hostOp, var] at h ⊢
    split at h <;> rename_i taken <;> cases h
    · rw [State.jump_engine, ← alike]
      exact if_pos taken
    · rw [State.advance_engine, ← alike]
      exact if_neg taken
  | reset => exact absurd rfl notReset

/-- Settles O36: the operation on the other key and schedule gives the same state with that schedule put in. -/
theorem hostAccessesDoNotRevealTheKey : Obligations.HostAccessesDoNotRevealTheKey := by
  intro op s t k rk notReset h
  obtain ⟨k', h'⟩ := hostOp_of_alike (e := { s.engine with key := k, rk := rk }) rfl notReset h
  exact ⟨_, h', rfl, rfl, rfl, rfl⟩

end Sys2Proof.Machine
end

section
/-! The byte views of the register groups (R37). -/

namespace Sys2Proof

/-- R37, R70: bit `i` of four bytes packed into a word, the last byte lowest. -/
theorem Col.getLsbD_toWord (c : Col) (i : Nat) :
    c.toWord.getLsbD i =
      if i < 8 then c.a3.getLsbD i else if i < 16 then c.a2.getLsbD (i - 8)
      else if i < 24 then c.a1.getLsbD (i - 16) else c.a0.getLsbD (i - 24) := by
  have second : i - 8 < 8 ↔ i < 16 := by omega
  have third : i - 16 < 8 ↔ i < 24 := by omega
  change (c.a0 ++ c.a1 ++ c.a2 ++ c.a3 : BitVec (8 + 8 + 8 + 8)).getLsbD i = _
  simp only [BitVec.getLsbD_append, Nat.sub_sub]
  simp only [Nat.reduceAdd, second, third]

/-- R37, R70: a column written through a word and read back. -/
theorem Col.ofWord_toWord (c : Col) : Col.ofWord c.toWord = c := by
  obtain ⟨a0, a1, a2, a3⟩ := c
  simp only [Col.ofWord, Col.mk.injEq]
  refine ⟨?_, ?_, ?_, ?_⟩ <;> refine BitVec.eq_of_getLsbD_eq fun i hi => ?_ <;>
    simp (disch := omega) only [BitVec.getLsbD_extractLsb', Col.getLsbD_toWord, hi, decide_true,
      Bool.true_and, if_true, if_pos, if_neg, Nat.add_sub_cancel_left, Nat.zero_add]

/-- R37, R70: a word read as four bytes and packed again. -/
theorem Col.toWord_ofWord (w : Word) : (Col.ofWord w).toWord = w := by
  refine BitVec.eq_of_getLsbD_eq fun i hi => ?_
  simp only [Col.getLsbD_toWord, Col.ofWord, BitVec.getLsbD_extractLsb']
  split_ifs <;>
    simp (disch := omega) only [decide_eq_true, Bool.true_and, Nat.zero_add, Nat.add_sub_cancel']

/-- R37: byte `m` of a word read as four bytes, bits [31-8m : 24-8m]. -/
theorem Col.ofWord_getD (w : Word) (m : Fin 4) :
    (Col.ofWord w).toBytes.getD m 0 = w.extractLsb' (24 - 8 * m.val) 8 := by
  fin_cases m <;> rfl

/-- Settles O51: group by group for the bytes, column by column for the round trips. -/
theorem byteViewsAreMostSignificantFirst : Obligations.ByteViewsAreMostSignificantFirst := by
  refine ⟨fun q n m => ?_, fun b => ?_, fun q => ?_⟩
  · rw [← Col.ofWord_getD]
    fin_cases n <;> fin_cases m <;> rfl
  · rw [Quad.toBlock, Block.toQuad, Col.ofWord_toWord, Col.ofWord_toWord, Col.ofWord_toWord,
      Col.ofWord_toWord]
  · rw [Quad.toBlock, Block.toQuad, Col.toWord_ofWord, Col.toWord_ofWord, Col.toWord_ofWord,
      Col.toWord_ofWord]

end Sys2Proof
end

section
/-! What a host access at each offset of the region reads and writes (R65, R66), said once per kind of offset: a
register, a word of a window, a reserved offset. -/

namespace Sys2Proof.Machine

/-- R33: the fields of `STATUS` do not overlap, so the word is their weighted sum. -/
theorem Engine.statusWord_eq_sum (e : Engine) :
    e.statusWord = BitVec.ofNat 32 (e.errCode.number.toNat * 16 +
      (if e.keyValid = true then 2 else 0) + (if e.busy = true then 1 else 0)) := by
  unfold Engine.statusWord
  cases e.errCode <;> cases e.keyValid <;> cases e.busy <;> rfl

/-- R18, R63: packing four bytes, the first most significant, is shifting them to their places. -/
theorem toWord_eq_shiftedWord (b0 b1 b2 b3 : Byte) :
    Col.toWord ⟨b0, b1, b2, b3⟩ = shiftedWord b0 b1 b2 b3 := by
  refine BitVec.eq_of_getLsbD_eq fun i hi => ?_
  simp only [Col.getLsbD_toWord, shiftedWord, BitVec.getLsbD_or, BitVec.getLsbD_shiftLeft,
    BitVec.getLsbD_setWidth, hi, decide_true, Bool.true_and]
  split_ifs <;>
    simp (disch := omega) only [BitVec.getLsbD_of_ge, decide_eq_true, decide_eq_false, Bool.not_true,
      Bool.not_false, Bool.false_and, Bool.true_and, Bool.false_or, Bool.or_false]

/-- R65: a read of a register gives what the register reads as. -/
@[simp] theorem State.hostRead_offset (s : State) (r : RegName) :
    s.hostRead r.offset = s.engine.readRegister r := by
  simp [State.hostRead]

/-- R63, R65: a read of word `k` of `IN_BUF` gives its four bytes. -/
theorem State.hostRead_inBuf (s : State) {k : Nat} (inside : 4 * k + 4 ≤ s.params.bufBytes) :
    s.hostRead (0x10000 + 4 * k) = some (shiftedWord (s.inByte (4 * k)) (s.inByte (4 * k + 1))
      (s.inByte (4 * k + 2)) (s.inByte (4 * k + 3))) := by
  simp only [State.hostRead, locate_inBuf _ inside, windowWord, toWord_eq_shiftedWord]

/-- R63, R65: a read of word `k` of `OUT_BUF` gives its four bytes, and draws while a command is in progress. -/
theorem State.hostRead_outBuf (s : State) (bound : s.params.bufBytes ≤ 65536) {k : Nat}
    (inside : 4 * k + 4 ≤ s.params.bufBytes) :
    s.hostRead (0x20000 + 4 * k) = if s.engine.busy = true then none else
      some (shiftedWord (s.outByte (4 * k)) (s.outByte (4 * k + 1)) (s.outByte (4 * k + 2))
        (s.outByte (4 * k + 3))) := by
  simp only [State.hostRead, locate_outBuf bound inside, windowWord, toWord_eq_shiftedWord]

/-- R62, R65: a reserved offset reads as zero. -/
theorem State.hostRead_reserved (s : State) {off : Nat} (beyond : 0x60 ≤ off)
    (notIn : ¬(0x10000 ≤ off ∧ off < 0x10000 + s.params.bufBytes))
    (notOut : ¬(0x20000 ≤ off ∧ off < 0x20000 + s.params.bufBytes)) : s.hostRead off = some 0 := by
  simp only [State.hostRead, locate_reserved beyond notIn notOut]

/-- R65: the variable read into holds the value read, or the value drawn. -/
theorem State.readInto_hostVar_same (s : State) (off x : Nat) :
    (s.readInto off x).hostVar x = (s.hostRead off).getD (Config.drawWord s.draws) := by
  rw [State.readInto_eq]
  simp [State.hostVar, Sparse.read_write_same]

/-- R65: every other variable of the host keeps its value. -/
theorem State.readInto_hostVar_other (s : State) (off : Nat) {x y : Nat} (other : y ≠ x) :
    (s.readInto off x).hostVar y = s.hostVar y := by
  rw [State.readInto_eq]
  simp [State.hostVar, Sparse.read_write_other _ _ other]

/-- R65: a read depends on the parameters, the engine and the bytes drawn at the last reset only. -/
theorem State.hostRead_congr {s t : State} (params : t.params = s.params)
    (engine : t.engine = s.engine) (resets : t.resets = s.resets) (off : Nat) :
    t.hostRead off = s.hostRead off := by
  have inByte : t.inByte = s.inByte := funext (inByte_congr (by rw [engine]) resets)
  have outByte : t.outByte = s.outByte := funext (outByte_congr (by rw [engine]) resets)
  simp only [State.hostRead, params, engine, inByte, outByte]

/-- R66: while no command is in progress a write to a register is the register's write. -/
theorem State.hostWrite_offset {s : State} (idle : s.engine.busy = false) (r : RegName) (v : Word) :
    s.hostWrite r.offset v = s.writeRegister v r := by
  rw [State.hostWrite_idle idle, locate_offset]

/-- R63, R66: while no command is in progress a write to word `k` of `IN_BUF` is the word's write. -/
theorem State.hostWrite_inBuf {s : State} (idle : s.engine.busy = false) {k : Nat}
    (inside : 4 * k + 4 ≤ s.params.bufBytes) (v : Word) :
    s.hostWrite (0x10000 + 4 * k) v = s.writeInWord k v := by
  rw [State.hostWrite_idle idle, locate_inBuf _ inside]

/-- R62, R66: a write to a read-only or reserved offset, or to the `OUT_BUF` window, changes nothing. -/
theorem State.hostWrite_ignored {s : State} {off : Nat} (aligned : off % 4 = 0)
    (ignored : off = 0x00000 ∨ off = 0x00008 ∨ (0x00048 ≤ off ∧ off ≤ 0x00054) ∨ off = 0x0005C ∨
      (0x00060 ≤ off ∧ ¬(0x10000 ≤ off ∧ off < 0x10000 + s.params.bufBytes))) (v : Word) :
    s.hostWrite off v = s := by
  cases busy : s.engine.busy with
  | true => exact State.hostWrite_busy busy off v
  | false =>
    rw [State.hostWrite_idle busy]
    cases named : locate s.params off with
    | reserved => rfl
    | outWord k => rfl
    | inWord k =>
      have := offset_of_locate_inWord aligned named
      omega
    | reg r =>
      have place := offset_of_locate_reg aligned named
      cases r with
      | id | status | blkOut _ | outLen => rfl
      | _ => simp only [RegName.offset] at place; omega

/-- R63, R66: a write to word `k` of `IN_BUF` puts the word's bytes there, most significant first. -/
theorem State.writeInWord_inByte (s : State) (k : Nat) (v : Word) {m : Nat} {b : Byte}
    (byte : (Col.ofWord v).toBytes[m]? = some b) : (s.writeInWord k v).inByte (4 * k + m) = b := by
  obtain ⟨inWord, -⟩ := List.getElem?_eq_some_iff.1 byte
  simp only [State.inByte, windowByte, State.writeInWord_engine, Sparse.read_writeAll]
  rw [if_pos (by omega), Nat.add_sub_cancel_left, byte, Option.getD_some]

/-- R63, R66: a write to word `k` of `IN_BUF` leaves every other byte. -/
theorem State.writeInWord_inByte_other (s : State) {k i : Nat} (v : Word)
    (other : i < 4 * k ∨ 4 * k + 4 ≤ i) : (s.writeInWord k v).inByte i = s.inByte i :=
  have outside : i / 4 ≠ k := by omega
  inByte_eq_of_other_word (s := s) (t := s.writeInWord k v) (w := v) rfl rfl outside

/-- R35: register `j` of a group of four keeps its value unless it is the one written. -/
theorem quad_get_set (q : Quad) (v : Word) (i j : Fin 4) :
    (q.set v j).get i = if i = j then v else q.get i := by
  fin_cases i <;> fin_cases j <;> rfl

/-- Settles O29: by what each offset names, register by register and window by window. -/
theorem hostReadReturnsTheRegisterMap : Obligations.HostReadReturnsTheRegisterMap := by
  intro s hp
  obtain ⟨whole, -, bound⟩ := Params.wf_bufBytes hp
  have inside {k : Nat} (hk : k < s.params.bufBytes / 4) : 4 * k + 4 ≤ s.params.bufBytes := by omega
  have status : s.hostRead 0x00008 = _ :=
    (s.hostRead_offset .status).trans (congrArg some s.engine.statusWord_eq_sum)
  exact ⟨s.hostRead_offset .id, s.hostRead_offset .cmd, status, s.hostRead_offset .keyLen,
    fun j => s.hostRead_offset (.key j), s.hostRead_offset .ivLen,
    fun j => s.hostRead_offset (.iv j), s.hostRead_offset .blkLen,
    fun j => s.hostRead_offset (.blkIn j), fun j => s.hostRead_offset (.blkOut j),
    s.hostRead_offset .inLen, s.hostRead_offset .outLen,
    fun k hk => s.hostRead_inBuf (inside hk), fun k hk => s.hostRead_outBuf bound (inside hk),
    fun off _ _ beyond notIn notOut => s.hostRead_reserved beyond notIn notOut,
    fun off x => ⟨s.readInto_engine off x, s.readInto_hostVar_same off x⟩⟩

/-- Settles O31: by what each offset names, register by register and word by word. -/
theorem hostWriteWritesTheRegisterMap : Obligations.HostWriteWritesTheRegisterMap := by
  refine ⟨quad_get_set, fun q => ⟨rfl, rfl, rfl, rfl⟩, fun s v hp =>
    ⟨fun busy off => State.hostWrite_busy busy off v, fun idle => ?_⟩⟩
  have register (r : RegName) := State.hostWrite_offset idle r v
  have cmd : (s.hostWrite 0x00004 v).engine = _ := congrArg State.engine (register .cmd)
  refine ⟨cmd, register .keyLen, fun j => register (.key j), register .ivLen,
    fun j => register (.iv j), register .blkLen, fun j => register (.blkIn j), register .inLen,
    fun k hk => ?_, fun off _ aligned ignored => State.hostWrite_ignored aligned ignored v⟩
  have whole := (Params.wf_bufBytes hp).1
  exact ⟨s.writeInWord k v, State.hostWrite_inBuf idle (by omega) v, rfl,
    s.writeInWord_inByte k v (m := 0) rfl, s.writeInWord_inByte k v (m := 1) rfl,
    s.writeInWord_inByte k v (m := 2) rfl, s.writeInWord_inByte k v (m := 3) rfl,
    fun i other => s.writeInWord_inByte_other v other⟩

end Sys2Proof.Machine
end

section
/-! When a host access has a meaning (R64), and what one step of the host then does. -/

namespace Sys2Proof.Machine

/-- R61, R64: the access at an aligned offset of the region has a meaning. -/
theorem accessOffset_base_add {p : Params} {off : Nat} (inside : off < 0x30000)
    (aligned : off % 4 = 0) : accessOffset p .bits32 (p.base + off) = .ok off := by
  simp [accessOffset, Nat.not_le.2 inside, aligned]

/-- R64: the check of an access, in the words of the rule. -/
theorem accessWf_iff {p : Params} {width : AccessWidth} {addr : Nat} :
    accessWf p width addr = true ↔
      p.base ≤ addr ∧ addr < p.base + 0x30000 ∧ width = .bits32 ∧ (addr - p.base) % 4 = 0 := by
  simp only [accessWf, Bool.and_eq_true, decide_eq_true_eq, beq_iff_eq, and_assoc]

/-- Settles O30: the access has a meaning, and the engine, on which every read depends, stays. -/
theorem aReadAccessHasNoSideEffect : Obligations.AReadAccessHasNoSideEffect := by
  intro s off x inside aligned
  refine ⟨(s.readInto off x).advance, ?_, ?_, fun y other => s.readInto_hostVar_other off other,
    State.hostRead_congr (s.readInto_params off x) (s.readInto_engine off x)
      (s.readInto_resets off x)⟩
  · simp only [hostOp, accessOffset_base_add inside aligned]
  · rw [State.readInto_eq]
    rfl

/-- Settles O33: a write is dropped while a command is in progress, and no other operation but reset reaches the
engine. -/
theorem noHostAccessReachesACommandInProgress :
    Obligations.NoHostAccessReachesACommandInProgress := by
  intro op s t busy notReset h
  rcases hostOp_next h with ⟨addr, v, off, -, -, rfl⟩ | ⟨addr, x, off, -, -, rfl⟩ |
    ⟨addr, n, x, -, loop⟩ | ⟨x, mask, target, -, n, rfl⟩ | ⟨reset, -⟩
  · rw [State.hostWrite_busy busy]
    exact ⟨rfl, rfl, rfl, rfl⟩
  · rw [State.readInto_eq]
    exact ⟨rfl, rfl, rfl, rfl⟩
  · obtain ⟨engine, params, delay, resets, -⟩ := readWordsTurn_frame loop
    exact ⟨engine, delay, resets, params⟩
  · exact ⟨rfl, rfl, rfl, rfl⟩
  · exact absurd reset notReset

/-- Settles O34: the host has a step exactly when its access passes the check, which is the rule's. -/
theorem accessesWithoutAMeaningAreRefused : Obligations.AccessesWithoutAMeaningAreRefused := by
  intro s width addr x v
  have write := hostOp_accessOk (.write width addr v) s
  have read := hostOp_accessOk (.read width addr x) s
  refine ⟨fun meant => ?_, fun meaningless => ?_⟩
  · have ok := accessWf_iff.2 meant
    exact ⟨write.1 ok, read.1 ok⟩
  · have bad := Bool.eq_false_iff.2 (mt accessWf_iff.1 meaningless)
    exact ⟨write.2 bad, read.2 bad⟩

/-- The passing of time does not change which accesses have a meaning. -/
@[simp] theorem State.tick_accessOk (s : State) (op : HostOp) : s.tick.accessOk op = s.accessOk op := by
  cases op <;> rfl

/-- R64, R275: when the next access has a meaning, the machine has a step. -/
theorem step_of_nextAccessOk {s : State} (ok : s.nextAccessOk) : ∃ t, step s = .next t := by
  cases turn : s.engineTurn with
  | true =>
    obtain ⟨t, performed, -⟩ := perform_effect (decode s.engine.cmd) s
    exact ⟨t, (step_engine turn).trans performed⟩
  | false =>
    rw [step_host turn, hostTurn]
    cases next : s.nextOp with
    | none => exact ⟨s.tick, rfl⟩
    | some op => exact (hostOp_accessOk op s.tick).1 (by rw [State.tick_accessOk, ok op next])

/-- R64: on the host's turn, when the next access has no meaning, the step is refused. -/
theorem step_refused_of_not_nextAccessOk {s : State} (turn : s.engineTurn = false)
    (bad : ¬s.nextAccessOk) : ∃ r, step s = .refused r := by
  obtain ⟨op, next, bad⟩ : ∃ op, s.nextOp = some op ∧ s.accessOk op = false := by
    simpa [State.nextAccessOk] using bad
  rw [step_host turn, hostTurn, next]
  exact (hostOp_accessOk op s.tick).2 (by rw [State.tick_accessOk, bad])

/-- A program of accesses that all have a meaning makes one next. -/
theorem State.hostAccessesWf.nextAccessOk {s : State} (wf : s.hostAccessesWf) : s.nextAccessOk :=
  fun op next => accessOk_of_wf (wf op (List.mem_of_getElem? next))

/-- Settles O35: by whose turn it is; no step changes the parameters or the program. -/
theorem aWellFormedHostNeverStopsTheMachine : Obligations.AWellFormedHostNeverStopsTheMachine := by
  refine fun s => ⟨step_of_nextAccessOk, fun hostsTurn => ?_, fun wf => ?_⟩
  · exact step_refused_of_not_nextAccessOk (Bool.eq_false_iff.2 (mt s.engineTurn_iff.1 hostsTurn))
  · obtain ⟨t, stepped⟩ := step_of_nextAccessOk wf.nextAccessOk
    obtain ⟨params, prog⟩ := step_params_prog stepped
    exact ⟨wf.nextAccessOk, t, stepped, by rwa [State.hostAccessesWf, params, prog]⟩

/-- Settles O32: the access has a meaning, and the write is accepted or dropped by `BUSY`. -/
theorem commandIssueLatchesTheWordOnce : Obligations.CommandIssueLatchesTheWordOnce := by
  intro s w
  refine ⟨(s.hostWrite RegName.cmd.offset w).advance, ?_, fun idle => ?_, fun busy => ?_⟩
  · have meant : accessOffset s.params .bits32 (s.params.base + 0x00004) = .ok 0x00004 :=
      accessOffset_base_add (by decide) (by decide)
    simp only [hostOp, meant]
    rfl
  · rw [State.hostWrite_offset idle]
    rfl
  · rw [State.hostWrite_busy busy]
    rfl

end Sys2Proof.Machine
end

section
/-! The decoder (R100 to R106): the fields of a command word as digits of its value, and which words each of the
twelve values of decoding stands for, said once for all of them. -/

namespace Sys2Proof

/-! ### The fields of a word -/

/-- R100: `OP` is the lowest hexadecimal digit of the word. -/
theorem opField_eq (w : Word) : opField w = w.toNat % 16 := by
  rw [opField, BitVec.extractLsb'_toNat, Nat.shiftRight_zero]

/-- R100: `MODE` is the next hexadecimal digit. -/
theorem modeField_eq (w : Word) : modeField w = w.toNat / 16 % 16 := by
  rw [modeField, BitVec.extractLsb'_toNat, Nat.shiftRight_eq_div_pow]

/-- R100: `RSV` is all the rest. -/
theorem rsvField_eq (w : Word) : rsvField w = w.toNat / 256 := by
  rw [rsvField, BitVec.extractLsb'_toNat, Nat.shiftRight_eq_div_pow]
  omega

/-- R100, R104: the fields fix the word, so a word with `RSV = 0` and the operation and mode of a command is the
command's word. -/
theorem eq_encode_of_fields {w : Word} {i : Instr} (rsv : rsvField w = 0) (op : opField w = i.op)
    (mode : modeField w = i.mode) : w = encode i := by
  rw [rsvField_eq] at rsv
  rw [opField_eq] at op
  rw [modeField_eq] at mode
  rw [encode, commandWord, ← op, ← mode]
  exact BitVec.eq_of_toNat_eq (by rw [BitVec.toNat_ofNat]; omega)

/-! ### The words of each value -/

/-- R103, R104: the decoder reads a command's word as the command. -/
theorem decode_encode (i : Instr) : decode (encode i) = .command i := by
  cases i with
  | nop => exact Laws.DecodeEncode.nop
  | kexp => exact Laws.DecodeEncode.kexp
  | kclr => exact Laws.DecodeEncode.kclr
  | eblk => exact Laws.DecodeEncode.eblk
  | dblk => exact Laws.DecodeEncode.dblk
  | ebufEcb => exact Laws.DecodeEncode.ebufEcb
  | ebufCbc => exact Laws.DecodeEncode.ebufCbc
  | dbufEcb => exact Laws.DecodeEncode.dbufEcb
  | dbufCbc => exact Laws.DecodeEncode.dbufCbc

/-- R104 to R106: the words that stand for each value of decoding. -/
def StandsFor (w : Word) : Decoded → Prop
  | .command i => w = encode i
  | .ebufBadMode => w.toNat / 256 = 0 ∧ w.toNat % 16 = 0x5 ∧ 2 ≤ w.toNat / 16 % 16
  | .dbufBadMode => w.toNat / 256 = 0 ∧ w.toNat % 16 = 0x6 ∧ 2 ≤ w.toNat / 16 % 16
  | .illegal => w.toNat / 256 ≠ 0 ∨ 7 ≤ w.toNat % 16 ∨ (w.toNat % 16 ≤ 4 ∧ w.toNat / 16 % 16 ≠ 0)

/-- R105: a word with an operation that takes no mode stands for the command, or is illegal with another mode. -/
theorem standsFor_decodePlain {w : Word} {i : Instr} (rsv : rsvField w = 0) (op : opField w = i.op)
    (plain : i.op ≤ 4) (noMode : i.mode = 0) : StandsFor w (decodePlain i (modeField w)) := by
  unfold decodePlain
  split
  case isTrue mode => exact eq_encode_of_fields rsv op (mode.trans noMode.symm)
  case isFalse mode =>
    rw [opField_eq] at op
    rw [modeField_eq] at mode
    exact .inr (.inr ⟨op.trans_le plain, mode⟩)

/-- R102: a word with a buffer operation stands for the command of its mode, or for the reserved mode. -/
theorem standsFor_decodeMode {w : Word} {ecb cbc : Instr} {bad : Decoded} (rsv : rsvField w = 0)
    (ecbOp : opField w = ecb.op) (ecbMode : ecb.mode = 0) (cbcOp : opField w = cbc.op)
    (cbcMode : cbc.mode = 1) (reserved : 2 ≤ modeField w → StandsFor w bad) :
    StandsFor w (decodeMode ecb cbc bad (modeField w)) := by
  unfold decodeMode
  split
  case isTrue mode => exact eq_encode_of_fields rsv ecbOp (mode.trans ecbMode.symm)
  case isFalse mode =>
    split
    case isTrue mode => exact eq_encode_of_fields rsv cbcOp (mode.trans cbcMode.symm)
    case isFalse => exact reserved (by omega)

/-- R103: every word stands for the value it decodes to. -/
theorem standsFor_decode (w : Word) : StandsFor w (decode w) := by
  unfold decode
  split
  case isTrue rsv => exact .inl (by rwa [rsvField_eq] at rsv)
  case isFalse rsv =>
    replace rsv : rsvField w = 0 := not_not.1 rsv
    split
    case h_1 op | h_2 op | h_3 op | h_4 op | h_5 op =>
      exact standsFor_decodePlain rsv op (by decide) rfl
    case h_6 op | h_7 op =>
      refine standsFor_decodeMode rsv op rfl op rfl fun mode => ?_
      rw [rsvField_eq] at rsv
      rw [opField_eq] at op
      rw [modeField_eq] at mode
      exact ⟨rsv, op, mode⟩
    case h_8 n0 n1 n2 n3 n4 n5 n6 =>
      simp only [opField_eq, imp_false] at n0 n1 n2 n3 n4 n5 n6
      exact .inr (.inl (by omega))

/-- R104: the word of a command is neither illegal nor one of a reserved mode. -/
theorem eq_command_of_standsFor_encode {i : Instr} {d : Decoded} (h : StandsFor (encode i) d) :
    ∃ j, d = .command j := by
  cases d with
  | command j => exact ⟨j, rfl⟩
  | ebufBadMode | dbufBadMode | illegal => cases i <;> exact absurd h (by unfold StandsFor; decide)

/-- R103 to R106: a word decodes to a value exactly when it stands for it. -/
theorem decode_eq_iff (w : Word) (d : Decoded) : decode w = d ↔ StandsFor w d := by
  refine ⟨fun h => h ▸ standsFor_decode w, fun h => ?_⟩
  have decoded := standsFor_decode w
  cases d with
  | command i => exact h ▸ decode_encode i
  | ebufBadMode | dbufBadMode | illegal =>
    cases value : decode w <;> rw [value] at decoded
    case command i =>
      obtain ⟨j, other⟩ := eq_command_of_standsFor_encode (decoded ▸ h)
      cases other
    all_goals simp only [StandsFor, reduceCtorEq] at h decoded ⊢
    all_goals omega

/-- Settles O1: the fields and the value are computed from the four words. -/
theorem encodingExamplesDecodeAsTheSpecSays : Obligations.EncodingExamplesDecodeAsTheSpecSays := by
  unfold Obligations.EncodingExamplesDecodeAsTheSpecSays
  decide

/-- Settles O2: the nine words are computed; the rest is that a word decodes to a command exactly when it stands
for it. -/
theorem decodeAndEncodeAgreeOnEveryWord : Obligations.DecodeAndEncodeAgreeOnEveryWord :=
  ⟨⟨rfl, rfl, rfl, rfl, rfl, rfl, rfl, rfl, rfl⟩, fun w i => decode_eq_iff w (.command i)⟩

end Sys2Proof
end

section
/-! What performing a decoded word leaves alone, and the engine's step (R105 to R110). -/

namespace Sys2Proof.Machine

variable {s t : State} {d : Decoded}

/-- R108: no command changes the parameters, the host or the count of draws. -/
theorem Effect.outside (h : Effect s d t) :
    t.params = s.params ∧ t.host = s.host ∧ t.draws = s.draws := by
  rw [h.withEngine]
  exact ⟨rfl, rfl, rfl⟩

/-- R108: no command writes its operands. -/
theorem Effect.operands (h : Effect s d t) :
    t.engine.cmd = s.engine.cmd ∧ t.engine.keyLen = s.engine.keyLen ∧ t.engine.key = s.engine.key ∧
      t.engine.ivLen = s.engine.ivLen ∧ t.engine.iv = s.engine.iv ∧
      t.engine.blkLen = s.engine.blkLen ∧ t.engine.blkIn = s.engine.blkIn ∧
      t.engine.inLen = s.engine.inLen := by
  cases h <;> exact ⟨rfl, rfl, rfl, rfl, rfl, rfl, rfl, rfl⟩

/-- R108: only the block commands write `BLK_OUT`. -/
theorem Effect.blkOut (h : Effect s d t) (notEblk : d ≠ .command .eblk)
    (notDblk : d ≠ .command .dblk) : t.engine.blkOut = s.engine.blkOut := by
  cases h with
  | eblk _ => exact absurd rfl notEblk
  | dblk _ => exact absurd rfl notDblk
  | _ => rfl

/-- R108: only the buffer commands write `OUT_LEN` and the output memory. -/
theorem Effect.output (h : Effect s d t) (notBuffer : isBuffer d = false) :
    t.engine.outLen = s.engine.outLen ∧ t.engine.outBuf = s.engine.outBuf := by
  cases h with
  | nop | kexpFails _ | kexp _ | kclr | eblkFails _ | dblkFails _ | eblk _ | dblk _ | illegal =>
    exact ⟨rfl, rfl⟩
  | _ => exact absurd notBuffer (by decide)

/-- R106: a `*_BADMODE` value reports the missing key before the mode. -/
theorem Engine.badModeError_eq (e : Engine) :
    e.badModeError = if e.keyValid = true then .unsupportedMode else .invalidKeyLength := by
  cases valid : e.keyValid <;> simp [Engine.badModeError, Engine.keyCheck, valid]

/-- R110: with a command in progress and no host step to come first, a step performs the value that the latched
word decodes to. -/
theorem step_of_decode (busy : s.engine.busy = true) (due : s.delay = 0)
    (decoded : decode s.engine.cmd = d) : step s = perform d s := by
  rw [step_engine (s.engineTurn_iff.2 ⟨busy, due⟩), decoded]

/-- Settles O3: the words by `decode_eq_iff`; a write to `CMD` is the register's, and performing is computed. -/
theorem illegalWordsAreAcceptedAndReported : Obligations.IllegalWordsAreAcceptedAndReported :=
  fun w => ⟨decode_eq_iff w .illegal,
    fun _ idle => congrArg State.engine (State.hostWrite_offset idle .cmd w), fun _ => rfl⟩

/-- Settles O4: the words by `decode_eq_iff`, and the code by whether a key is loaded. -/
theorem badModeWordsReportKeyThenMode : Obligations.BadModeWordsReportKeyThenMode := by
  refine ⟨fun w => decode_eq_iff w .ebufBadMode, fun w => decode_eq_iff w .dbufBadMode,
    fun d s badMode => ?_⟩
  rw [← Engine.badModeError_eq]
  rcases badMode with rfl | rfl <;> rfl

/-- Settles O5: each clause is the step for one kind of value. -/
theorem stepPerformsTheLatchedCommand : Obligations.StepPerformsTheLatchedCommand :=
  fun _ busy due => ⟨fun _ decoded => step_of_decode busy due decoded, step_of_decode busy due,
    step_of_decode busy due, step_of_decode busy due⟩

/-- Settles O6: the step performs the latched word, which always completes, within the engine. -/
theorem everyEngineStepClearsBusyAndStaysInTheEngine :
    Obligations.EveryEngineStepClearsBusyAndStaysInTheEngine := by
  intro s busy due
  obtain ⟨t, performed, effect⟩ := perform_effect (decode s.engine.cmd) s
  exact ⟨t, (step_of_decode busy due rfl).trans performed, effect.busy, effect.withEngine⟩

/-- Settles O7: every decoded word ends in one of the ways of `Effect`. -/
theorem everyDecodedWordCompletesOnEveryState : Obligations.EveryDecodedWordCompletesOnEveryState := by
  intro d s
  obtain ⟨t, performed, effect⟩ := perform_effect d s
  obtain ⟨params, host, -⟩ := effect.outside
  obtain ⟨cmd, -⟩ := effect.operands
  exact ⟨t, performed, effect.busy, cmd, params, host⟩

/-- Settles O17: nothing outside the engine changes, no operand register does, and no byte of `InBuf`. -/
theorem noCommandWritesItsOperands : Obligations.NoCommandWritesItsOperands := by
  intro d s t performed
  have effect := perform_inv performed
  obtain ⟨params, host, draws⟩ := effect.outside
  obtain ⟨cmd, keyLen, key, ivLen, iv, blkLen, blkIn, inLen⟩ := effect.operands
  exact ⟨params, host, effect.delay, draws, effect.resets, cmd, keyLen, key, ivLen, iv, blkLen,
    blkIn, inLen, inByte_congr effect.inBuf effect.resets⟩

/-- Settles O18: one frame per kind of result. -/
theorem eachCommandWritesOnlyItsOwnResults : Obligations.EachCommandWritesOnlyItsOwnResults := by
  intro d s t performed
  have effect := perform_inv performed
  refine ⟨fun notKexp notKclr => ?_, effect.blkOut, fun notBuffer => ?_⟩
  · rcases effect.schedule_cases with same | ⟨kexp | kclr, -⟩
    · exact same
    · exact absurd kexp notKexp
    · exact absurd kclr notKclr
  · obtain ⟨outLen, outBuf⟩ := effect.output notBuffer
    exact ⟨outLen, outByte_congr outBuf effect.resets⟩

end Sys2Proof.Machine
end

section
/-! The host's `getbuf` (R113) on an idle engine: a read access gives its variable the value read and nothing else,
one turn of the loop reads one word, and the turns compose to a run. -/

namespace Sys2Proof.Machine

variable {s t u : State}

/-! ### Reads and turns on an idle engine -/

/-- What a variable holds after an assignment. -/
theorem State.hostVar_assign (s : State) (x y : Nat) (v : Word) :
    (s.assign x v).hostVar y = if y = x then v else s.hostVar y := by
  simp only [State.hostVar, State.assign_host, Sparse.read_write]
  split <;> rfl

/-- R65: a read that draws nothing assigns the value read. -/
theorem State.readInto_of_hostRead {off : Nat} {v : Word} (read : s.hostRead off = some v) (x : Nat) :
    s.readInto off x = s.assign x v := by
  simp only [State.readInto, read]

/-- R65, R112: a 32-bit read access at an aligned offset of the region that draws nothing. -/
theorem hostOp_read {off : Nat} {v : Word} (inside : off < 0x30000) (aligned : off % 4 = 0)
    (read : s.hostRead off = some v) (x : Nat) :
    hostOp (.read .bits32 (s.params.base + off) x) s = .next (s.assign x v).advance := by
  simp only [hostOp, accessOffset_base_add inside aligned, State.readInto_of_hostRead read]

/-- R17: while no command is in progress, a step is the host's next operation. -/
theorem step_of_nextOp (idle : s.engine.busy = false) {op : HostOp} (next : s.nextOp = some op) :
    step s = hostOp op s.tick := by
  rw [step_host (by simp [State.engineTurn, idle]), hostTurn, next]

/-! ### The words a loop has read -/

/-- R63: word `k` of the `OUT_BUF` window. -/
def State.outWord (s : State) (k : Nat) : Word :=
  shiftedWord (s.outByte (4 * k)) (s.outByte (4 * k + 1)) (s.outByte (4 * k + 2)) (s.outByte (4 * k + 3))

/-- R44: an output window that no byte was written to has the words it had. -/
theorem outWord_congr (outBuf : t.engine.outBuf = s.engine.outBuf) (resets : t.resets = s.resets)
    (k : Nat) : t.outWord k = s.outWord k := by
  simp only [State.outWord, outByte_congr outBuf resets]

/-- `u` is `s` after the host has read the words `k` to `m - 1` of `OUT_BUF` into the variables from `x + k`
on: the engine and the program are as before, and so is every other variable. Where the host is in its
program is left open. -/
def WordsRead (s u : State) (x k m : Nat) : Prop :=
  (u.engine = s.engine ∧ u.params = s.params ∧ u.resets = s.resets ∧ u.draws = s.draws ∧
    u.host.prog = s.host.prog) ∧
  (∀ i, k ≤ i → i < m → u.hostVar (x + i) = s.outWord i) ∧
  ∀ y, y < x + k ∨ x + m ≤ y → u.hostVar y = s.hostVar y

/-- Reading the words `k` to `l - 1` and then those from `l` on is reading them all. -/
theorem WordsRead.trans {x k l m : Nat} (kl : k ≤ l) (lm : l ≤ m) (h : WordsRead s t x k l)
    (h' : WordsRead t u x l m) : WordsRead s u x k m := by
  obtain ⟨⟨engine, params, resets, draws, prog⟩, words, others⟩ := h
  obtain ⟨⟨engine', params', resets', draws', prog'⟩, words', others'⟩ := h'
  refine ⟨⟨engine'.trans engine, params'.trans params, resets'.trans resets, draws'.trans draws,
    prog'.trans prog⟩, fun i hk hm => ?_, fun y outside => ?_⟩
  · by_cases first : i < l
    · rw [others' _ (.inl (by omega)), words i hk first]
    · rw [words' i (by omega) hm, outWord_congr (by rw [engine]) resets]
  · rw [others' y (by omega), others y (by omega)]

/-- Reading one word is an assignment. -/
theorem WordsRead.one (s : State) (x k : Nat) (w : Sweep) :
    WordsRead s ((s.tick.assign (x + k) (s.outWord k)).sweepOn w) x k (k + 1) := by
  have var (y : Nat) : ((s.tick.assign (x + k) (s.outWord k)).sweepOn w).hostVar y =
      if y = x + k then s.outWord k else s.hostVar y := by
    rw [State.hostVar, State.sweepOn_vars]
    exact s.tick.hostVar_assign (x + k) y (s.outWord k)
  refine ⟨by simp, fun i hk hm => ?_, fun y outside => ?_⟩
  · obtain rfl : i = k := by omega
    rw [var, if_pos rfl]
  · rw [var, if_neg (by omega)]

/-! ### The steps of a loop and its run -/

/-- The host is about to read word `k` of the `m` words of a `getbuf` loop, on an idle engine whose window holds
them all. -/
def AtWord (s : State) (n x k m : Nat) : Prop :=
  s.params.wf = true ∧ s.engine.busy = false ∧ 4 * m ≤ s.params.bufBytes ∧
  s.nextOp = some (.readWords (s.params.base + 0x20000) n x) ∧ s.sweepAt n = ⟨k, m⟩

variable {n x k m : Nat}

/-- R113: a loop of no words is over after one step, which reads nothing. -/
theorem AtWord.step_of_empty (h : AtWord s n x k 0) : step s = .next s.tick.endSweep := by
  obtain ⟨-, idle, -, next, sweep⟩ := h
  replace sweep : s.tick.sweepAt n = ⟨k, 0⟩ := sweep
  rw [step_of_nextOp idle next]
  simp [hostOp, readWordsTurn, sweep]

/-- R113: a turn of a loop that has a word left to read is a read access and its count. -/
theorem readWordsTurn_of_accessOffset {addr off : Nat} (sweep : s.sweepAt n = ⟨k, m⟩) (more : k < m)
    (meant : accessOffset s.params .bits32 (addr + 4 * k) = .ok off) :
    readWordsTurn addr n x s = .next ((s.readInto off (x + k)).sweepOn ⟨k, m⟩) := by
  simp only [readWordsTurn, sweep, if_pos more, meant]

/-- R113: a step of the loop reads word `k` into variable `x + k`. -/
theorem AtWord.step_reads (h : AtWord s n x k m) (more : k < m) :
    step s = .next ((s.tick.assign (x + k) (s.outWord k)).sweepOn ⟨k, m⟩) := by
  obtain ⟨wf, idle, inside, next, sweep⟩ := h
  obtain ⟨-, -, bound⟩ := Params.wf_bufBytes wf
  have read : s.tick.hostRead (0x20000 + 4 * k) = some (s.outWord k) := by
    rw [s.tick.hostRead_outBuf bound (by rw [State.tick_params]; omega), State.tick_engine, idle]
    rfl
  have meant : accessOffset s.params .bits32 (s.params.base + 0x20000 + 4 * k) =
      .ok (0x20000 + 4 * k) := by
    rw [Nat.add_assoc]
    exact accessOffset_base_add (by omega) (by omega)
  rw [step_of_nextOp idle next, hostOp,
    readWordsTurn_of_accessOffset (s := s.tick) sweep more meant, State.readInto_of_hostRead read]

/-- R113: after a word that is not the last, the host is about to read the next. -/
theorem AtWord.sweepOn (h : AtWord s n x k m) (more : k + 1 < m) (v : Word) :
    AtWord ((s.tick.assign (x + k) v).sweepOn ⟨k, m⟩) n x (k + 1) m := by
  obtain ⟨wf, idle, inside, next, -⟩ := h
  rw [State.sweepOn, if_pos more]
  exact ⟨wf, idle, inside, next, rfl⟩

theorem runSteps_succ {j : Nat} (h : step s = .next t) : runSteps (j + 1) s = runSteps j t := by
  simp only [runSteps, h]

/-- R113: the loop reads the `j + 1` words that are left in as many steps, and the host is then past it. -/
theorem runSteps_wordsLeft (j : Nat) (h : AtWord s n x k m) (left : m = k + j + 1) :
    ∃ u, runSteps (j + 1) s = .next u ∧ WordsRead s u x k m ∧ u.host.pc = s.host.pc + 1 ∧
      u.host.sweep = none := by
  induction j generalizing s k with
  | zero =>
    subst left
    exact ⟨_, runSteps_succ (h.step_reads (Nat.lt_succ_self k)), WordsRead.one s x k _,
      by simp [State.sweepOn], by simp [State.sweepOn]⟩
  | succ j ih =>
    have more : k + 1 < m := by omega
    obtain ⟨u, run, read, past, ended⟩ := ih (h.sweepOn more (s.outWord k)) (by omega)
    refine ⟨u, (runSteps_succ (h.step_reads (by omega))).trans run,
      (WordsRead.one s x k _).trans (by omega) (by omega) read, ?_, ended⟩
    rw [past, State.sweepOn, if_pos more]
    rfl

/-- R112, R113: the whole loop, of any number of words, the empty loop's one step included. -/
theorem runSteps_loop (h : AtWord s n x 0 m) :
    ∃ u, runSteps (max 1 m) s = .next u ∧ WordsRead s u x 0 m ∧
      u.host.pc = s.host.pc + 1 ∧ u.host.sweep = none := by
  cases m with
  | zero =>
    exact ⟨_, runSteps_succ h.step_of_empty,
      ⟨⟨rfl, rfl, rfl, rfl, rfl⟩, fun i _ absent => by omega, fun _ _ => rfl⟩, rfl, rfl⟩
  | succ j =>
    rw [Nat.max_eq_right (Nat.le_add_left 1 j)]
    exact runSteps_wordsLeft j h (by omega)

/-- R112, R113: the read of `OUT_LEN` on an idle engine, after which the host is about to read the first of
the words it asks for. -/
theorem step_reads_outLen (hp : s.params.wf = true) (fits : s.engine.outLen.toNat ≤ s.params.bufBytes)
    (idle : s.engine.busy = false) (noSweep : s.host.sweep = none)
    (readLen : s.nextOp = some (.read .bits32 (s.params.base + 0x0005C) n))
    (loop : s.host.prog[s.host.pc + 1]? = some (.readWords (s.params.base + 0x20000) n x)) :
    step s = .next (s.tick.assign n s.engine.outLen).advance ∧
      AtWord (s.tick.assign n s.engine.outLen).advance n x 0 ((s.engine.outLen.toNat + 3) / 4) := by
  have whole := (Params.wf_bufBytes hp).1
  have len : s.tick.hostRead RegName.outLen.offset = some s.engine.outLen := by
    rw [State.hostRead_offset, Engine.readRegister, State.tick_engine, idle]
    rfl
  have var : (s.tick.assign n s.engine.outLen).advance.hostVar n = s.engine.outLen :=
    (s.tick.hostVar_assign n n _).trans (if_pos rfl)
  refine ⟨(step_of_nextOp idle readLen).trans
      (hostOp_read (s := s.tick) (by decide) (by decide) len n), hp, idle, ?_, loop, ?_⟩
  · change 4 * ((s.engine.outLen.toNat + 3) / 4) ≤ s.params.bufBytes
    omega
  · simp [State.sweepAt, noSweep, var]

/-- Settles O37: the read of `OUT_LEN`, then the loop over the words it asks for. -/
theorem getbufReadsTheWholeOutput : Obligations.GetbufReadsTheWholeOutput := by
  refine ⟨fun _ _ _ _ _ => rfl, fun s n x hp fits idle noSweep readLen loop => ?_⟩
  obtain ⟨first, start⟩ := step_reads_outLen hp fits idle noSweep readLen loop
  obtain ⟨u, run, ⟨⟨engine, params, resets, draws, prog⟩, words, others⟩, past, ended⟩ :=
    runSteps_loop start
  have var (y : Nat) := s.tick.hostVar_assign n y s.engine.outLen
  refine ⟨u, ?_, engine, params, resets, draws, prog, past, ended,
    fun k below => words k (Nat.zero_le k) below, fun apart => ?_, fun y other outside => ?_⟩
  · rw [Nat.add_comm, runSteps_succ first, run]
  · exact (others n apart).trans ((var n).trans (if_pos rfl))
  · exact (others y outside).trans ((var y).trans (if_neg other))

end Sys2Proof.Machine
end

section
/-! Arithmetic in GF(2^8) (R171, R172): a map that is linear over exclusive-or is known from its values on the eight
bytes with one bit; so the field product commutes and associates, and a nonzero byte has at most one inverse. -/

namespace Sys2Proof

/-! ### Linear maps on bytes -/

/-- A bit times a byte. -/
def bitTimes (c : Bool) (a : Byte) : Byte := if c then a else 0x00

theorem bitTimes_xor_left (c d : Bool) (a : Byte) :
    bitTimes (c ^^ d) a = bitTimes c a ^^^ bitTimes d a := by
  cases c <;> cases d <;> simp [bitTimes]

/-- A map on bytes that keeps exclusive-or. -/
def XorLinear (f : Byte → Byte) : Prop := ∀ a b, f (a ^^^ b) = f a ^^^ f b

theorem XorLinear.map_zero {f : Byte → Byte} (linear : XorLinear f) : f 0x00 = 0x00 := by
  simpa using linear 0x00 0x00

theorem XorLinear.map_bitTimes {f : Byte → Byte} (linear : XorLinear f) (c : Bool) (a : Byte) :
    f (bitTimes c a) = bitTimes c (f a) := by
  cases c
  · exact linear.map_zero
  · rfl

theorem bitTimes_linear (c : Bool) : XorLinear (bitTimes c) := by
  intro a b
  cases c
  · exact (BitVec.xor_zero).symm
  · rfl

theorem XorLinear.comp {f g : Byte → Byte} (hf : XorLinear f) (hg : XorLinear g) :
    XorLinear fun a => f (g a) := by
  intro a b
  change f (g (a ^^^ b)) = f (g a) ^^^ f (g b)
  rw [hg, hf]

/-- The byte with only bit `i` set: `x^i` as a polynomial (R170). -/
def bitByte (i : Fin 8) : Byte := BitVec.twoPow 8 i.val

/-- The exclusive-or of some of the bits of a byte. -/
def xorOfBits (a : Byte) (is : List (Fin 8)) : Byte :=
  is.foldr (fun i b => bitTimes (a.getLsbD i.val) (bitByte i) ^^^ b) 0x00

theorem xorOfBits_cons (a : Byte) (i : Fin 8) (is : List (Fin 8)) :
    xorOfBits a (i :: is) = bitTimes (a.getLsbD i.val) (bitByte i) ^^^ xorOfBits a is := rfl

theorem xorOfBits_finRange (a : Byte) : xorOfBits a (List.finRange 8) = a := by
  revert a
  decide

/-- Linear maps that agree on the bytes with one bit are equal. -/
theorem XorLinear.eq_of_bits {f g : Byte → Byte} (hf : XorLinear f) (hg : XorLinear g)
    (bits : ∀ i, f (bitByte i) = g (bitByte i)) (a : Byte) : f a = g a := by
  have sums (is : List (Fin 8)) : f (xorOfBits a is) = g (xorOfBits a is) := by
    induction is with
    | nil => exact hf.map_zero.trans hg.map_zero.symm
    | cons i is ih =>
      rw [xorOfBits_cons, hf, hg, ih, hf.map_bitTimes, hg.map_bitTimes, bits]
  rw [← xorOfBits_finRange a, sums]

/-- A product of bytes that is linear in each factor. -/
def XorBilinear (f : Byte → Byte → Byte) : Prop :=
  (∀ b, XorLinear fun a => f a b) ∧ ∀ a, XorLinear (f a)

/-- Bilinear products that agree on the bytes with one bit are equal. -/
theorem XorBilinear.eq_of_bits {f g : Byte → Byte → Byte} (hf : XorBilinear f) (hg : XorBilinear g)
    (bits : ∀ i j, f (bitByte i) (bitByte j) = g (bitByte i) (bitByte j)) (a b : Byte) :
    f a b = g a b :=
  (hf.1 b).eq_of_bits (hg.1 b) (fun i => (hf.2 _).eq_of_bits (hg.2 _) (bits i) b) a

/-! ### The field product -/

theorem xtime_linear : XorLinear xtime := by
  intro a b
  have top (c : Byte) : xtime c = (c <<< 1) ^^^ bitTimes (c.getLsbD 7) 0x1B := rfl
  rw [top, top, top, BitVec.shiftLeft_xor_distrib, BitVec.getLsbD_xor, bitTimes_xor_left]
  ac_rfl

theorem gmulLoop_succ (n : Nat) (a b p : Byte) :
    gmulLoop (n + 1) a b p = gmulLoop n (xtime a) (b >>> 1) (p ^^^ bitTimes (b.getLsbD 0) a) := by
  rw [gmulLoop, bitTimes]
  split
  · rfl
  · exact congrArg _ (BitVec.xor_zero).symm

theorem gmulLoop_xor_left (n : Nat) (a b c p q : Byte) :
    gmulLoop n (a ^^^ b) c (p ^^^ q) = gmulLoop n a c p ^^^ gmulLoop n b c q := by
  induction n generalizing a b c p q with
  | zero => rfl
  | succ n ih =>
    rw [gmulLoop_succ, gmulLoop_succ, gmulLoop_succ, ← ih, xtime_linear, bitTimes_linear]
    ac_rfl

theorem gmulLoop_xor_right (n : Nat) (a b c p q : Byte) :
    gmulLoop n a (b ^^^ c) (p ^^^ q) = gmulLoop n a b p ^^^ gmulLoop n a c q := by
  induction n generalizing a b c p q with
  | zero => rfl
  | succ n ih =>
    rw [gmulLoop_succ, gmulLoop_succ, gmulLoop_succ, ← ih, BitVec.ushiftRight_xor_distrib,
      BitVec.getLsbD_xor, bitTimes_xor_left]
    ac_rfl

/-- A linear map that commutes with `xtime` can be applied before or after the shift-and-add loop. -/
theorem gmulLoop_map {f : Byte → Byte} (linear : XorLinear f) (comm : ∀ a, f (xtime a) = xtime (f a))
    (n : Nat) (a b p : Byte) : gmulLoop n (f a) b (f p) = f (gmulLoop n a b p) := by
  induction n generalizing a b p with
  | zero => rfl
  | succ n ih => rw [gmulLoop_succ, gmulLoop_succ, ← ih, comm, linear, linear.map_bitTimes]

theorem gmul_linear_left (b : Byte) : XorLinear fun a => gmul a b :=
  fun a c => gmulLoop_xor_left 8 a c b 0x00 0x00

theorem gmul_linear_right (a : Byte) : XorLinear (gmul a) :=
  fun b c => gmulLoop_xor_right 8 a b c 0x00 0x00

theorem gmul_comm (a b : Byte) : gmul a b = gmul b a :=
  have product : XorBilinear gmul := ⟨gmul_linear_left, gmul_linear_right⟩
  have swapped : XorBilinear fun a b => gmul b a := ⟨gmul_linear_right, gmul_linear_left⟩
  product.eq_of_bits swapped (by decide) a b

/-- R171: the product with `xtime` of a byte is `xtime` of the product with the byte. -/
theorem gmul_xtime_right (a b : Byte) : gmul a (xtime b) = xtime (gmul a b) :=
  have before : XorBilinear fun a b => gmul a (xtime b) :=
    ⟨fun b => gmul_linear_left (xtime b), fun a => (gmul_linear_right a).comp xtime_linear⟩
  have after : XorBilinear fun a b => xtime (gmul a b) :=
    ⟨fun b => xtime_linear.comp (gmul_linear_left b), fun a => xtime_linear.comp (gmul_linear_right a)⟩
  before.eq_of_bits after (by decide) a b

/-- R172: multiplying by `a` is linear and commutes with `xtime`, so it passes through the loop. -/
theorem gmul_assoc (a b c : Byte) : gmul (gmul a b) c = gmul a (gmul b c) := by
  have loop := gmulLoop_map (gmul_linear_right a) (gmul_xtime_right a) 8 b c 0x00
  rwa [(gmul_linear_right a).map_zero] at loop

theorem one_gmul (a : Byte) : gmul 0x01 a = a :=
  (gmul_linear_right 0x01).eq_of_bits (g := id) (fun _ _ => rfl) (by decide) a

theorem zero_gmul (a : Byte) : gmul 0x00 a = 0x00 := (gmul_linear_left a).map_zero

/-- R172: a byte has at most one inverse. -/
theorem eq_of_gmul_eq_one {a b c : Byte} (hb : gmul a b = 0x01) (hc : gmul a c = 0x01) : b = c :=
  calc
    b = gmul 0x01 b := (one_gmul b).symm
    _ = gmul (gmul c a) b := by rw [gmul_comm c a, hc]
    _ = gmul c (gmul a b) := gmul_assoc c a b
    _ = gmul 0x01 c := by rw [hb, gmul_comm]
    _ = c := one_gmul c

theorem mem_allBytes (a : Byte) : a ∈ allBytes :=
  List.mem_map.2 ⟨a.toNat, List.mem_range.2 a.isLt, by simp⟩

/-- R172: a byte whose product with `a` is one is the inverse of `a`. -/
theorem inv_eq_of_gmul_eq_one {a b : Byte} (h : gmul a b = 0x01) : inv a = b := by
  have found : (allBytes.find? fun c => gmul a c == 0x01).isSome :=
    List.find?_isSome.2 ⟨b, mem_allBytes b, by simp [h]⟩
  obtain ⟨c, hc⟩ := Option.isSome_iff_exists.1 found
  have one : gmul a c = 0x01 := by simpa using List.find?_some hc
  rw [inv, hc, Option.getD_some]
  exact eq_of_gmul_eq_one one h

/-- R172: 0x00 has no inverse, so `inv` gives 0x00. -/
theorem inv_zero : inv 0x00 = 0x00 := by
  have notFound : (allBytes.find? fun c => gmul 0x00 c == 0x01) = none :=
    List.find?_eq_none.2 fun c _ => by rw [zero_gmul]; decide
  rw [inv, notFound, Option.getD_none]

end Sys2Proof
end

section
/-! The substitution table and its algebraic definition (R130, R131). -/

namespace Sys2Proof

/-- The affine map of R131. -/
def sboxAffine (b : Byte) : Byte :=
  b ^^^ rotl8 b 1 ^^^ rotl8 b 2 ^^^ rotl8 b 3 ^^^ rotl8 b 4 ^^^ 0x63

/-- The affine map back from a value of the table. -/
def sboxAffineInv (y : Byte) : Byte := rotl8 y 1 ^^^ rotl8 y 3 ^^^ rotl8 y 6 ^^^ 0x05

theorem sboxAffine_sboxAffineInv (y : Byte) : sboxAffine (sboxAffineInv y) = y := by
  revert y
  decide

/-- R131: the affine map sends the table's value at `x` back to a byte whose product with `x` is one. -/
theorem gmul_sboxAffineInv_sbox : ∀ x : Byte, x ≠ 0x00 → gmul x (sboxAffineInv (sbox x)) = 0x01 := by
  decide

theorem inv_eq_sboxAffineInv_sbox (x : Byte) : inv x = sboxAffineInv (sbox x) := by
  by_cases zero : x = 0x00
  · rw [zero, inv_zero]
    decide
  · exact inv_eq_of_gmul_eq_one (gmul_sboxAffineInv_sbox x zero)

theorem sboxAlgebraic_eq_sbox (x : Byte) : sboxAlgebraic x = sbox x := by
  change sboxAffine (inv x) = sbox x
  rw [inv_eq_sboxAffineInv_sbox, sboxAffine_sboxAffineInv]

theorem invSbox_sbox (x : Byte) : invSbox (sbox x) = x := by
  revert x
  decide

theorem sbox_ne_self : ∀ x : Byte, sbox x ≠ x := by decide

/-- Settles O43: the table's value, sent back by the affine map, is the inverse; `invSbox` undoes the table, which
makes it injective; the rotations of R131 are the library's by definition. -/
theorem theSubstitutionTableIsTheAlgebraicOne : Obligations.TheSubstitutionTableIsTheAlgebraicOne :=
  ⟨fun x => (sboxAlgebraic_eq_sbox x).symm, fun x => (sboxAlgebraic_eq_sbox x).symm,
    fun x y same => by rw [← invSbox_sbox x, same, invSbox_sbox], sbox_ne_self⟩

end Sys2Proof
end

section
/-! The key schedule (R132 to R136): the words of an expansion are the words of its round keys, and each is made
from the words before it (R136); and what `KEXP` and `KCLR` do (R140, R141). -/

namespace Sys2Proof

/-- R135: round key `r` of the expansion of a key, as the list of the round keys has it. -/
theorem expand_keys_getElem? (k : Block) {r : Nat} (h : r < 11) :
    (expand k).keys[r]? = some (roundKey k r) := by
  have keys : (expand k).keys = (List.range 11).map (roundKey k) := rfl
  simp [keys, h]

/-- R136: word `i` of the expansion of a key. -/
def expandedWord (k : Block) (i : Nat) : Col := (expand k).words.getD i ⟨0, 0, 0, 0⟩

/-- R135: block `r` of a string of blocks is made of its words `4r` to `4r + 3`. -/
theorem words_of_block {bs : List Block} {r : Nat} {b : Block} (h : bs[r]? = some b) :
    let w := (bs.flatMap fun k => [k.c0, k.c1, k.c2, k.c3])
    w[4 * r]? = some b.c0 ∧ w[4 * r + 1]? = some b.c1 ∧ w[4 * r + 2]? = some b.c2 ∧
      w[4 * r + 3]? = some b.c3 := by
  induction bs generalizing r with
  | nil => simp at h
  | cons c bs ih =>
    cases r with
    | zero => cases h; exact ⟨rfl, rfl, rfl, rfl⟩
    | succ r => exact ih h

/-- R135: the words of round key `r`. -/
theorem roundKey_eq_words (k : Block) {r : Nat} (h : r < 11) :
    roundKey k r = ⟨expandedWord k (4 * r), expandedWord k (4 * r + 1), expandedWord k (4 * r + 2),
      expandedWord k (4 * r + 3)⟩ := by
  obtain ⟨c0, c1, c2, c3⟩ := words_of_block (expand_keys_getElem? k h)
  simp only [expandedWord, Schedule.words, List.getD_eq_getElem?_getD, c0, c1, c2, c3,
    Option.getD_some]

/-- R136: the words of round key `r + 1` are made from those of round key `r`. -/
theorem words_succ_eq_nextRoundKey (k : Block) {r : Nat} (h : r < 10) :
    (⟨expandedWord k (4 * r + 4), expandedWord k (4 * r + 5), expandedWord k (4 * r + 6),
      expandedWord k (4 * r + 7)⟩ : Block) =
    nextRoundKey (r + 1) ⟨expandedWord k (4 * r), expandedWord k (4 * r + 1),
      expandedWord k (4 * r + 2), expandedWord k (4 * r + 3)⟩ := by
  rw [← roundKey_eq_words k (by omega)]
  exact (roundKey_eq_words k (r := r + 1) (by omega)).symm

/-- R136: the first word of a later round key takes rotation, substitution and the round constant. -/
theorem expandedWord_first (k : Block) {r : Nat} (h : r < 10) :
    expandedWord k (4 * r + 4) = (expandedWord k (4 * r)).xor
      ((subWord (rotWord (expandedWord k (4 * r + 3)))).xor (rcon (r + 1))) :=
  congrArg Block.c0 (words_succ_eq_nextRoundKey k h)

/-- R136: each of its other three words is the word four back, XORed with the previous word. -/
theorem expandedWord_other (k : Block) {r j : Nat} (h : r < 10) (hj : j < 3) :
    expandedWord k (4 * r + 5 + j) =
      (expandedWord k (4 * r + 1 + j)).xor (expandedWord k (4 * r + 4 + j)) := by
  obtain ⟨w0, w1, w2, w3⟩ := (Block.mk.injEq ..).mp (words_succ_eq_nextRoundKey k h)
  match j, hj with
  | 0, _ => exact w1.trans (congrArg _ w0.symm)
  | 1, _ => exact w2.trans (congrArg _ w1.symm)
  | 2, _ => exact w3.trans (congrArg _ w2.symm)

/-- R136: the recurrence of the words. -/
theorem expandedWord_recurrence (k : Block) {i : Nat} (h4 : 4 ≤ i) (h44 : i < 44) :
    expandedWord k i = (expandedWord k (i - 4)).xor
      (if i % 4 = 0 then (subWord (rotWord (expandedWord k (i - 1)))).xor (rcon (i / 4))
        else expandedWord k (i - 1)) := by
  split
  case isTrue first =>
    obtain ⟨r, rfl⟩ : ∃ r, i = 4 * r + 4 := ⟨i / 4 - 1, by omega⟩
    have index : (4 * r + 4) / 4 = r + 1 := by omega
    rw [index]
    exact expandedWord_first k (by omega)
  case isFalse other =>
    obtain ⟨r, j, rfl, hj⟩ : ∃ r j, i = 4 * r + 5 + j ∧ j < 3 :=
      ⟨i / 4 - 1, i % 4 - 1, by omega, by omega⟩
    have back : 4 * r + 5 + j - 4 = 4 * r + 1 + j := by omega
    have before : 4 * r + 5 + j - 1 = 4 * r + 4 + j := by omega
    rw [back, before]
    exact expandedWord_other k (by omega) hj

/-- R134: each round constant byte is the `xtime` of the one before. -/
theorem rc_succ {i : Nat} (h : 1 ≤ i) : rc (i + 1) = xtime (rc i) := by
  obtain ⟨j, rfl⟩ := Nat.exists_eq_add_of_le' h
  rfl

/-- Settles O42: the recurrence is that of the round keys, read word by word. -/
theorem expandFollowsTheWordRecurrence : Obligations.ExpandFollowsTheWordRecurrence := by
  refine ⟨fun _ _ _ _ => ⟨rfl, rfl, fun _ _ _ _ => rfl⟩, by decide, fun i h => ⟨rc_succ h, rfl⟩,
    fun k => ⟨rfl, ⟨rfl, rfl, rfl, rfl⟩, fun i => expandedWord_recurrence k, fun r h => ?_⟩⟩
  rw [expand_keys_getElem? k h, roundKey_eq_words k h]
  rfl

end Sys2Proof

namespace Sys2Proof.Machine

/-- Settles O9, by the two cases of `KEXP`. -/
theorem kexpExpandsTheKeyOrDestroysTheSchedule :
    Obligations.KexpExpandsTheKeyOrDestroysTheSchedule := by
  refine ⟨decode_encode .kexp, fun s => ?_⟩
  rcases execKexp_cases s with ⟨wrong, outcome⟩ | ⟨right, outcome⟩
  · exact ⟨fun right => absurd right wrong, fun _ => outcome⟩
  · exact ⟨fun _ => outcome, fun wrong => absurd right wrong⟩

/-- Settles O10: `KCLR` has one outcome. -/
theorem kclrReleasesTheSchedule : Obligations.KclrReleasesTheSchedule :=
  ⟨decode_encode .kclr, fun _ => rfl⟩

end Sys2Proof.Machine
end

section
/-! Arithmetic in GF(2^8) (R171, R172), its laws gathered: `xtime` is the product with 0x02, and `inv` gives every
nonzero byte its inverse. -/

namespace Sys2Proof

/-- R171: bit 7 of a byte is set from 0x80 on. -/
theorem xtime_eq_shift (a : Byte) :
    xtime a = (a <<< 1) ^^^ (if 0x80 ≤ a.toNat then 0x1B else 0x00) := by
  have top : a.getLsbD 7 = decide (0x80 ≤ a.toNat) := a.msb_eq_decide
  simp only [xtime, top, decide_eq_true_eq]

theorem two_gmul (a : Byte) : gmul 0x02 a = xtime a :=
  calc
    gmul 0x02 a = gmul a (xtime 0x01) := gmul_comm 0x02 a
    _ = xtime (gmul 0x01 a) := by rw [gmul_xtime_right, gmul_comm]
    _ = xtime a := by rw [one_gmul]

/-- R172: the table's value, sent back by the affine map, is an inverse, and `inv` finds it. -/
theorem gmul_inv {a : Byte} (nonzero : a ≠ 0x00) : gmul a (inv a) = 0x01 := by
  rw [inv_eq_sboxAffineInv_sbox, gmul_sboxAffineInv_sbox a nonzero]

/-- Settles O45, from the laws of the product. -/
theorem theFieldLawsHold : Obligations.TheFieldLawsHold :=
  ⟨xtime_eq_shift, gmul_comm, gmul_assoc, gmul_linear_right,
    fun a => ⟨one_gmul a, zero_gmul a, two_gmul a⟩, inv_zero,
    fun _ nonzero => ⟨gmul_inv nonzero, fun _ one => (inv_eq_of_gmul_eq_one one).symm⟩⟩

end Sys2Proof
end

section
/-! The round functions (R173 to R180): each byte by byte or column by column, and each undone by its inverse. -/

namespace Sys2Proof

/-! ### Bytes and columns of a block -/

/-- R173: column `c` of a block in flat form. -/
def Block.column (s : Block) (c : Nat) : Col :=
  ⟨s.byte (0 + 4 * c), s.byte (1 + 4 * c), s.byte (2 + 4 * c), s.byte (3 + 4 * c)⟩

theorem Block.column_mapCols (f : Col → Col) (s : Block) {c : Nat} (h : c < 4) :
    (s.mapCols f).column c = f (s.column c) := by
  interval_cases c <;> rfl

theorem Block.byte_mapCols_map (f : Byte → Byte) (s : Block) {i : Nat} (h : i < 16) :
    (s.mapCols (Col.map f)).byte i = f (s.byte i) := by
  interval_cases i <;> rfl

theorem Block.byte_xor (s k : Block) {i : Nat} (h : i < 16) :
    (s.xor k).byte i = s.byte i ^^^ k.byte i := by
  interval_cases i <;> rfl

/-- Maps of columns that undo each other, applied to every column of a block. -/
theorem Block.mapCols_mapCols {f g : Col → Col} (undo : ∀ x, g (f x) = x) (s : Block) :
    (s.mapCols f).mapCols g = s := by
  simp only [Block.mapCols, undo]

/-! ### `AddRoundKey` -/

theorem Col.xor_xor_cancel (x y : Col) : (x.xor y).xor y = x := by
  simp only [Col.xor, BitVec.xor_assoc, BitVec.xor_self, BitVec.xor_zero]

/-- R174: adding a round key twice changes nothing. -/
@[simp] theorem addRoundKey_addRoundKey (s k : Block) : addRoundKey (addRoundKey s k) k = s := by
  simp only [addRoundKey, Block.xor, Col.xor_xor_cancel]

/-! ### `SubBytes` -/

theorem sbox_invSbox (x : Byte) : sbox (invSbox x) = x := by
  revert x
  decide

theorem Col.map_map {f g : Byte → Byte} (undo : ∀ a, g (f a) = a) (x : Col) :
    (x.map f).map g = x := by
  simp only [Col.map, undo]

@[simp] theorem invSubBytes_subBytes (s : Block) : invSubBytes (subBytes s) = s :=
  Block.mapCols_mapCols (Col.map_map invSbox_sbox) s

@[simp] theorem subBytes_invSubBytes (s : Block) : subBytes (invSubBytes s) = s :=
  Block.mapCols_mapCols (Col.map_map sbox_invSbox) s

/-- Settles O44: the two tables at every byte, and the maps of bytes they give. -/
theorem theInverseTableInvertsTheTable : Obligations.TheInverseTableInvertsTheTable :=
  ⟨fun x => ⟨invSbox_sbox x, sbox_invSbox x⟩, fun s =>
    ⟨fun _ => s.byte_mapCols_map invSbox, fun _ => s.byte_mapCols_map sbox, invSubBytes_subBytes s⟩⟩

/-! ### `ShiftRows` -/

@[simp] theorem invShiftRows_shiftRows (s : Block) : invShiftRows (shiftRows s) = s := rfl

@[simp] theorem shiftRows_invShiftRows (s : Block) : shiftRows (invShiftRows s) = s := rfl

theorem shiftRows_byte (s : Block) {i : Nat} (h : i < 16) :
    (shiftRows s).byte i = s.byte (i % 4 + 4 * ((i / 4 + i % 4) % 4)) := by
  interval_cases i <;> rfl

theorem invShiftRows_byte (s : Block) {i : Nat} (h : i < 16) :
    (invShiftRows s).byte i = s.byte (i % 4 + 4 * ((i / 4 + 4 - i % 4) % 4)) := by
  interval_cases i <;> rfl

/-- Settles O46: the flat form at each of the 16 bytes; the two permutations undo each other by definition. -/
theorem shiftRowsInFlatFormAndItsInverse : Obligations.ShiftRowsInFlatFormAndItsInverse :=
  fun s => ⟨fun _ => shiftRows_byte s, fun _ => invShiftRows_byte s, invShiftRows_shiftRows s,
    shiftRows_invShiftRows s⟩

/-! ### `MixColumns` -/

theorem gmul_xor_right (a b c : Byte) : gmul a (b ^^^ c) = gmul a b ^^^ gmul a c :=
  gmul_linear_right a b c

theorem gmul_xor_left (a b c : Byte) : gmul (a ^^^ b) c = gmul a c ^^^ gmul b c :=
  gmul_linear_left c a b

/-- R180: the product of two circulant matrices is the circulant of the cyclic convolution of their first rows. -/
theorem circulant_circulant (m0 m1 m2 m3 n0 n1 n2 n3 : Byte) (x : Col) :
    circulant m0 m1 m2 m3 (circulant n0 n1 n2 n3 x) =
      circulant (gmul m0 n0 ^^^ gmul m1 n3 ^^^ gmul m2 n2 ^^^ gmul m3 n1)
        (gmul m0 n1 ^^^ gmul m1 n0 ^^^ gmul m2 n3 ^^^ gmul m3 n2)
        (gmul m0 n2 ^^^ gmul m1 n1 ^^^ gmul m2 n0 ^^^ gmul m3 n3)
        (gmul m0 n3 ^^^ gmul m1 n2 ^^^ gmul m2 n1 ^^^ gmul m3 n0) x := by
  simp only [circulant, gmul_xor_right, gmul_xor_left, gmul_assoc, Col.mk.injEq]
  refine ⟨?_, ?_, ?_, ?_⟩ <;> ac_rfl

/-- R180: the circulant of (01, 00, 00, 00) is the identity matrix. -/
theorem circulant_one (x : Col) : circulant 0x01 0x00 0x00 0x00 x = x := by
  simp only [circulant, one_gmul, zero_gmul]
  simp

/-- R177: the matrix of `MixColumns` is a circulant too. -/
theorem mixColumn_eq_circulant (x : Col) : mixColumn x = circulant 0x02 0x03 0x01 0x01 x := by
  simp only [mixColumn, circulant, one_gmul]

/-- R180: the convolution of (0e, 0b, 0d, 09) and (02, 03, 01, 01) is (01, 00, 00, 00). -/
theorem invMixColumn_mixColumn (x : Col) : invMixColumn (mixColumn x) = x := by
  rw [mixColumn_eq_circulant, invMixColumn, circulant_circulant]
  exact circulant_one x

theorem mixColumn_invMixColumn (x : Col) : mixColumn (invMixColumn x) = x := by
  rw [mixColumn_eq_circulant, invMixColumn, circulant_circulant]
  exact circulant_one x

@[simp] theorem invMixColumns_mixColumns (s : Block) : invMixColumns (mixColumns s) = s :=
  Block.mapCols_mapCols invMixColumn_mixColumn s

@[simp] theorem mixColumns_invMixColumns (s : Block) : mixColumns (invMixColumns s) = s :=
  Block.mapCols_mapCols mixColumn_invMixColumn s

/-- Settles O47: the product of the two circulant matrices is the identity, either way round. -/
theorem invMixColumnsInvertsMixColumns : Obligations.InvMixColumnsInvertsMixColumns :=
  ⟨fun _ _ _ _ => rfl, fun s => ⟨invMixColumns_mixColumns s, mixColumns_invMixColumns s⟩⟩

end Sys2Proof
end

section
/-! The cipher and its inverse (R181 to R183): the states they go through, and that each round undoes its inverse. -/

namespace Sys2Proof

/-! ### The states of the rounds -/

/-- R181: the state of `Cipher` after round `r`, `r < 10`. -/
def cipherState (b : Block) (rk : Schedule) : Nat → Block
  | 0 => addRoundKey b rk.rk0
  | r + 1 => cipherRound (cipherState b rk r) (rk.keys.getD (r + 1) rk.rk0)

theorem cipher_eq_last_round (b : Block) (rk : Schedule) :
    cipher b rk = addRoundKey (shiftRows (subBytes (cipherState b rk 9))) rk.rk10 := rfl

/-- R182: the state of `InvCipher` after `n` of its inverse rounds, `n < 10`, the first of them round 9. -/
def invCipherState (b : Block) (rk : Schedule) : Nat → Block
  | 0 => addRoundKey b rk.rk10
  | n + 1 => invCipherRound (invCipherState b rk n) (rk.keys.getD (9 - n) rk.rk0)

theorem invCipher_eq_last_round (b : Block) (rk : Schedule) :
    invCipher b rk = addRoundKey (invSubBytes (invShiftRows (invCipherState b rk 9))) rk.rk0 := rfl

/-- R182: inverse round `r` starts from the state of inverse round `r + 1`. -/
theorem invCipherState_of_round (b : Block) (rk : Schedule) {r : Nat} (h : r ≤ 9) :
    invCipherState b rk (10 - r) =
      invCipherRound (invCipherState b rk (10 - (r + 1))) (rk.keys.getD r rk.rk0) := by
  have count : 10 - r = 10 - (r + 1) + 1 := by omega
  have key : 9 - (10 - (r + 1)) = r := by omega
  rw [count, invCipherState, key]

/-- Settles O48: byte by byte, column by column, and the states of the rounds. -/
theorem cipherIsTheTenRounds : Obligations.CipherIsTheTenRounds := by
  refine ⟨fun s k _ => s.byte_xor k,
    fun s c hc => (Col.mk.injEq ..).mp (s.column_mapCols mixColumn hc),
    fun b rk => ⟨rfl, cipherState b rk, rfl, fun r first _ => ?_, cipher_eq_last_round b rk⟩⟩
  obtain ⟨n, rfl⟩ := Nat.exists_eq_add_of_le' first
  rfl

/-- Settles O49: column by column, and the states of the inverse rounds, of which `10 - r` have been made after
inverse round `r`. -/
theorem invCipherIsTheTenInverseRounds : Obligations.InvCipherIsTheTenInverseRounds :=
  ⟨fun s _ hc => (Col.mk.injEq ..).mp (s.column_mapCols invMixColumn hc),
    fun b rk => ⟨fun r => invCipherState b rk (10 - r), rfl,
      fun _ _ last => invCipherState_of_round b rk last, invCipher_eq_last_round b rk⟩⟩

/-! ### The cipher and its inverse undo each other -/

/-- A fold whose steps are undone one by one, seen through `p`, is undone by the fold over the reversed list. -/
theorem foldl_reverse_undo {f g : Block → Block → Block} {p : Block → Block}
    (undo : ∀ s k, g (p (f s k)) k = p s) (ks : List Block) (s : Block) :
    ks.reverse.foldl g (p (ks.foldl f s)) = p s := by
  induction ks generalizing s with
  | nil => rfl
  | cons k ks ih =>
    rw [List.reverse_cons, List.foldl_append, List.foldl_cons (l := ks), ih]
    exact undo s k

/-- R183: `SubBytes` and `ShiftRows` of the next round stand between a round and the inverse round that undoes it. -/
theorem invCipherRound_cipherRound (s k : Block) :
    invCipherRound (shiftRows (subBytes (cipherRound s k))) k = shiftRows (subBytes s) := by
  simp only [invCipherRound, cipherRound, invShiftRows_shiftRows, invSubBytes_subBytes,
    addRoundKey_addRoundKey, invMixColumns_mixColumns]

theorem cipherRound_invCipherRound (s k : Block) :
    cipherRound (invSubBytes (invShiftRows (invCipherRound s k))) k =
      invSubBytes (invShiftRows s) := by
  simp only [invCipherRound, cipherRound, subBytes_invSubBytes, shiftRows_invShiftRows,
    mixColumns_invMixColumns, addRoundKey_addRoundKey]

theorem invCipher_cipher (b : Block) (rk : Schedule) : invCipher (cipher b rk) rk = b := by
  have rounds := foldl_reverse_undo (p := fun s => shiftRows (subBytes s)) invCipherRound_cipherRound
    rk.middle (addRoundKey b rk.rk0)
  rw [invCipher, cipher, addRoundKey_addRoundKey, rounds, invShiftRows_shiftRows,
    invSubBytes_subBytes, addRoundKey_addRoundKey]

theorem cipher_invCipher (b : Block) (rk : Schedule) : cipher (invCipher b rk) rk = b := by
  have rounds := foldl_reverse_undo (p := fun s => invSubBytes (invShiftRows s))
    cipherRound_invCipherRound rk.middle.reverse (addRoundKey b rk.rk10)
  rw [List.reverse_reverse] at rounds
  rw [cipher, invCipher, addRoundKey_addRoundKey, rounds, subBytes_invSubBytes,
    shiftRows_invShiftRows, addRoundKey_addRoundKey]

/-- Settles O50: each round is undone by its inverse, in reverse order. -/
theorem cipherAndInvCipherAreInverse : Obligations.CipherAndInvCipherAreInverse :=
  fun b rk => ⟨invCipher_cipher b rk, cipher_invCipher b rk⟩

end Sys2Proof
end

section
/-! The block commands (R190, R191). -/

namespace Sys2Proof.Machine

/-- R190, R191: what a block command answers on a state, given the state `done` it answers when its checks pass. -/
def BlockOutcome (s : State) (answer : Host.Outcome State Fault Refusal) (done : State) : Prop :=
  (∃ c, s.engine.blockError = some c ∧ answer = .next (s.raise .block c)) ∨
  (s.engine.blockError = none ∧ answer = .next done)

section
variable {s done : State} {answer : Host.Outcome State Fault Refusal}

/-- R274: a block command that fails only reports it. -/
theorem BlockOutcome.of_error {c : Code} (outcome : BlockOutcome s answer done)
    (error : s.engine.blockError = some c) : answer = .next (withStatus s c) := by
  obtain ⟨d, failed, rfl⟩ | ⟨passed, -⟩ := outcome
  · cases error.symm.trans failed
    rfl
  · cases error.symm.trans passed

theorem BlockOutcome.of_no_error (outcome : BlockOutcome s answer done)
    (error : s.engine.blockError = none) : answer = .next done := by
  obtain ⟨d, failed, -⟩ | ⟨-, rfl⟩ := outcome
  · cases error.symm.trans failed
  · rfl

/-- R190, R191: the outcomes of a block command in the order of its checks. -/
theorem BlockOutcome.in_precedence (outcome : BlockOutcome s answer done) :
    (s.engine.keyValid = false → answer = .next (withStatus s .invalidKeyLength)) ∧
    (s.engine.keyValid = true → s.engine.blkLen ≠ 16 →
      answer = .next (withStatus s .invalidBlockLength)) ∧
    (s.engine.keyValid = true → s.engine.blkLen = 16 → answer = .next done) := by
  rcases blockError_cases s.engine with ⟨key, error⟩ | ⟨key, len, error⟩ | ⟨key, len, error⟩
  · exact ⟨fun _ => outcome.of_error error, by simp [key], by simp [key]⟩
  · exact ⟨by simp [key], fun _ _ => outcome.of_error error, fun _ right => absurd right len⟩
  · exact ⟨by simp [key], fun _ wrong => absurd len wrong, fun _ _ => outcome.of_no_error error⟩

end

/-- Settles O11, by the two cases of `EBLK`. -/
theorem eblkEncryptsTheInputBlock : Obligations.EblkEncryptsTheInputBlock :=
  ⟨decode_encode .eblk, fun s => BlockOutcome.in_precedence (execEblk_cases s)⟩

/-- Settles O12, by the two cases of `DBLK`. -/
theorem dblkDecryptsTheInputBlock : Obligations.DblkDecryptsTheInputBlock :=
  ⟨decode_encode .dblk, fun s => BlockOutcome.in_precedence (execDblk_cases s)⟩

end Sys2Proof.Machine
end

section
/-! Padding (R220, R221): what `Pad` appends, and that `Unpad` accepts exactly what it produces. -/

namespace Sys2Proof

/-- R220: the pad length is 1 to 16. -/
theorem padLength_mem (n : Nat) : 1 ≤ padLength n ∧ padLength n ≤ 16 := by
  unfold padLength
  omega

/-- R220: padding adds the pad length. -/
theorem length_add_padLength (p : List Byte) : p.length + padLength p.length = (pad p).length := by
  simp [pad]

/-- R220: the last byte of a padded string is the pad length. -/
theorem pad_getLast? (p : List Byte) :
    (pad p).getLast? = some (BitVec.ofNat 8 (padLength p.length)) := by
  have positive : padLength p.length ≠ 0 := by have := padLength_mem p.length; omega
  simp [pad, List.getLast?_append, List.getLast?_replicate, positive]

/-- A pad length is a byte value, so the byte of it names it. -/
theorem toNat_ofNat_padLength (n : Nat) : (BitVec.ofNat 8 (padLength n)).toNat = padLength n := by
  have := padLength_mem n
  rw [BitVec.toNat_ofNat]
  omega

/-- R221: unpadding takes the padding off. -/
theorem unpad_pad (p : List Byte) : unpad (pad p) = some p := by
  have last : (pad p).getLastD 0x00 = BitVec.ofNat 8 (padLength p.length) := by
    rw [List.getLastD_eq_getLast?, pad_getLast?, Option.getD_some]
  have range := padLength_mem p.length
  have cut : (pad p).length - padLength p.length = p.length := by
    have := length_add_padLength p
    omega
  have value := toNat_ofNat_padLength p.length
  have accepted : ¬(BitVec.ofNat 8 (padLength p.length) = 0x00 ∨
      BitVec.ofNat 8 (padLength p.length) > 0x10) := by
    bv_omega
  unfold unpad
  simp only [last, value, cut, if_neg accepted]
  simp [pad]

/-- R221: a string of whole blocks that unpadding accepts is what it gives back, padded. -/
theorem eq_pad_of_unpad {d p : List Byte} (whole : d.length % 16 = 0) (nonempty : 16 ≤ d.length)
    (h : unpad d = some p) : d = pad p := by
  obtain ⟨n, last, positive, small, rfl, all⟩ := unpad_some h
  have length : (d.take (d.length - n)).length = d.length - n := by simp
  have padding : padLength (d.length - n) = n := by
    unfold padLength
    omega
  have tail : d.drop (d.length - n) = List.replicate n (BitVec.ofNat 8 n) := by
    refine List.eq_replicate_iff.2 ⟨by simp only [List.length_drop]; omega, fun b hb => ?_⟩
    rw [all b hb, last, BitVec.ofNat_toNat, BitVec.setWidth_eq]
  rw [pad, length, padding, ← tail, List.take_append_drop]

/-- Settles O53, by the definition of `Pad` and the length of what it gives. -/
theorem padAppendsItsOwnLength : Obligations.PadAppendsItsOwnLength :=
  fun p => ⟨padLength p.length, rfl, (padLength_mem _).1, (padLength_mem _).2, rfl, pad_length p⟩

/-- Settles O54: each direction is one of the two laws of `Unpad`. -/
theorem unpadAcceptsExactlyWhatPadProduces : Obligations.UnpadAcceptsExactlyWhatPadProduces :=
  fun _ p whole nonempty => ⟨eq_pad_of_unpad whole nonempty, fun h => h ▸ unpad_pad p⟩

end Sys2Proof
end

section
/-! The modes on strings of whole blocks (R222, R223): the blocks of a result, and that decryption undoes
encryption. -/

namespace Sys2Proof

/-! ### The blocks of a string -/

/-- R222: taking the first block off a string moves the others down by one. -/
theorem blockAt_toBytes_append (b : Block) (d : List Byte) (i : Nat) :
    Machine.blockAt (b.toBytes ++ d) (i + 1) = Machine.blockAt d i := by
  have later : ∀ j, (b.toBytes ++ d).getD (16 * (i + 1) + j) 0 = d.getD (16 * i + j) 0 := by
    intro j
    have rest : 16 * (i + 1) + j - b.toBytes.length = 16 * i + j := by
      rw [Block.toBytes_length]
      omega
    rw [List.getD_append_right _ _ _ _ (by rw [Block.toBytes_length]; omega), rest]
  unfold Machine.blockAt
  simp only [later]

/-- R222: block `i` of a concatenation is its `i`-th block. -/
theorem blockAt_bytesOf {bs : List Block} {i : Nat} (h : i < bs.length) :
    Machine.blockAt (bytesOf bs) i = bs[i] := by
  induction bs generalizing i with
  | nil => simp at h
  | cons b bs ih =>
    cases i with
    | zero => rfl
    | succ i => exact (blockAt_toBytes_append b (bytesOf bs) i).trans (ih (Nat.lt_of_succ_lt_succ h))

/-! ### Exclusive-or of blocks -/

/-- Exclusive-or with the same block twice changes nothing. -/
@[simp] theorem Block.xor_xor_cancel (x y : Block) : (x.xor y).xor y = x := addRoundKey_addRoundKey x y

/-- Exclusive-or with sixteen zero bytes changes nothing. -/
theorem Block.xor_of_toBytes_zero {z : Block} (zero : z.toBytes = List.replicate 16 0x00) (x : Block) :
    x.xor z = x := by
  have h : [z] = blocksOf (List.replicate 16 0x00) := by rw [← zero]; rfl
  cases h
  simp [Block.xor, Col.xor]

/-! ### ECB -/

@[simp] theorem ecbEnc_bytesOf (bs : List Block) (rk : Schedule) :
    ecbEnc (bytesOf bs) rk = bytesOf (bs.map fun b => cipher b rk) :=
  congrArg (fun ds : List Block => bytesOf (ds.map fun b => cipher b rk)) (blocksOf_bytesOf bs)

@[simp] theorem ecbDec_bytesOf (bs : List Block) (rk : Schedule) :
    ecbDec (bytesOf bs) rk = bytesOf (bs.map fun b => invCipher b rk) :=
  congrArg (fun ds : List Block => bytesOf (ds.map fun b => invCipher b rk)) (blocksOf_bytesOf bs)

/-- R222, R183: ECB decryption undoes ECB encryption. -/
theorem ecbDec_ecbEnc {d : List Byte} (rk : Schedule) (whole : d.length % 16 = 0) :
    ecbDec (ecbEnc d rk) rk = d := by
  obtain ⟨bs, rfl⟩ := exists_bytesOf whole
  simp [Function.comp_def, invCipher_cipher]

/-- Settles O55: the blocks of the result are the transformed blocks of the string. -/
theorem ecbTransformsEachBlockIndependently : Obligations.EcbTransformsEachBlockIndependently := by
  intro d rk whole
  refine ⟨ecbEnc_length rk whole, ecbDec_length rk whole, fun i inside => ?_⟩
  obtain ⟨bs, rfl⟩ := exists_bytesOf whole
  have inside : i < bs.length := by simpa using inside
  simp [blockAt_bytesOf, inside]

/-! ### CBC -/

@[simp] theorem cbcEnc_bytesOf (bs : List Block) (rk : Schedule) (iv : Block) :
    cbcEnc (bytesOf bs) rk iv = bytesOf (cbcEncBlocks rk iv bs) :=
  congrArg (fun ds => bytesOf (cbcEncBlocks rk iv ds)) (blocksOf_bytesOf bs)

@[simp] theorem cbcDec_bytesOf (bs : List Block) (rk : Schedule) (iv : Block) :
    cbcDec (bytesOf bs) rk iv = bytesOf (cbcDecBlocks rk iv bs) :=
  congrArg (fun ds => bytesOf (cbcDecBlocks rk iv ds)) (blocksOf_bytesOf bs)

/-- R223: each ciphertext block is made from its plaintext block and the ciphertext block before. -/
theorem cbcEncBlocks_getElem (rk : Schedule) (prev : Block) (ds : List Block) {i : Nat}
    (h : i < (cbcEncBlocks rk prev ds).length) :
    (cbcEncBlocks rk prev ds)[i] =
      cipher ((ds[i]'(by simpa using h)).xor
        (if i = 0 then prev else (cbcEncBlocks rk prev ds)[i - 1])) rk := by
  induction ds generalizing prev i with
  | nil => simp [cbcEncBlocks] at h
  | cons d ds ih =>
    cases i with
    | zero => rfl
    | succ i =>
      have chained := ih (cipher (d.xor prev) rk) (i := i) (by simpa [cbcEncBlocks] using h)
      cases i <;> simpa [cbcEncBlocks] using chained

/-- R223: each plaintext block is made from its ciphertext block and the one before. -/
theorem cbcDecBlocks_getElem (rk : Schedule) (prev : Block) (cs : List Block) {i : Nat}
    (h : i < cs.length) :
    (cbcDecBlocks rk prev cs)[i]'(by simpa using h) =
      (invCipher cs[i] rk).xor (if i = 0 then prev else cs[i - 1]) := by
  induction cs generalizing prev i with
  | nil => simp at h
  | cons c cs ih =>
    cases i with
    | zero => rfl
    | succ i =>
      have chained := ih c (i := i) (by simpa using h)
      cases i <;> simpa [cbcDecBlocks] using chained

theorem cbcDecBlocks_cbcEncBlocks (rk : Schedule) (prev : Block) (ds : List Block) :
    cbcDecBlocks rk prev (cbcEncBlocks rk prev ds) = ds := by
  induction ds generalizing prev with
  | nil => rfl
  | cons d ds ih => simp [cbcEncBlocks, cbcDecBlocks, invCipher_cipher, ih]

/-- R223, R183: CBC decryption undoes CBC encryption under the same IV. -/
theorem cbcDec_cbcEnc {d : List Byte} (rk : Schedule) (iv : Block) (whole : d.length % 16 = 0) :
    cbcDec (cbcEnc d rk iv) rk iv = d := by
  obtain ⟨bs, rfl⟩ := exists_bytesOf whole
  simp [cbcDecBlocks_cbcEncBlocks]

/-- R223: under an all-zero IV a single block is encrypted as in ECB. -/
theorem cbcEnc_eq_ecbEnc {d : List Byte} (rk : Schedule) {iv : Block} (one : d.length = 16)
    (zero : iv.toBytes = List.replicate 16 0x00) : cbcEnc d rk iv = ecbEnc d rk := by
  obtain ⟨bs, rfl⟩ := exists_bytesOf (d := d) (by omega)
  obtain ⟨b, rfl⟩ := List.length_eq_one_iff.1 (show bs.length = 1 by simpa using one)
  rw [cbcEnc_bytesOf, ecbEnc_bytesOf, cbcEncBlocks, Block.xor_of_toBytes_zero zero]
  rfl

/-- Settles O56: the two chains block by block; the IV registers are operands, which no command writes. -/
theorem cbcChainsThroughTheCiphertext : Obligations.CbcChainsThroughTheCiphertext := by
  refine ⟨fun d rk iv whole => ⟨cbcEnc_length rk iv whole, cbcDec_length rk iv whole, ?_, ?_,
    cbcEnc_eq_ecbEnc rk⟩, fun x y i => x.byte_xor y, fun i s t _ performed => ?_⟩
  · intro i inside
    obtain ⟨bs, rfl⟩ := exists_bytesOf whole
    have inside : i < bs.length := by simpa using inside
    have before : i - 1 < bs.length := by omega
    simpa [blockAt_bytesOf, inside, before] using
      cbcEncBlocks_getElem rk iv bs (i := i) (by simpa using inside)
  · intro i inside
    obtain ⟨bs, rfl⟩ := exists_bytesOf whole
    have inside : i < bs.length := by simpa using inside
    have before : i - 1 < bs.length := by omega
    simpa [blockAt_bytesOf, inside, before] using cbcDecBlocks_getElem rk iv bs inside
  · obtain ⟨-, -, -, -, iv, -⟩ := (Machine.perform_inv (d := .command i) performed).operands
    exact iv

end Sys2Proof
end

section
/-! The buffer commands on the machine (R224 to R233): the checks of each in their order, and what each answers from
the error of its checks and its result. -/

namespace Sys2Proof.Machine

/-! ### The checks in their order -/

theorem firstError_unless (p : Prop) [Decidable p] (c : Code) (l : List (Option Code)) :
    firstError ((if p then none else some c) :: l) = if p then firstError l else some c := by
  split <;> rfl

theorem firstError_when (p : Prop) [Decidable p] (c : Code) (l : List (Option Code)) :
    firstError ((if p then some c else none) :: l) = if p then some c else firstError l := by
  split <;> rfl

theorem firstError_keyCheck_cons (e : Engine) (l : List (Option Code)) :
    firstError (e.keyCheck :: l) =
      if e.keyValid = true then firstError l else some .invalidKeyLength :=
  firstError_unless _ _ l

theorem firstError_ivCheck_cons (e : Engine) (l : List (Option Code)) :
    firstError (e.ivCheck :: l) = if e.ivLen = 16 then firstError l else some .invalidIVLength :=
  firstError_unless _ _ l

theorem firstError_encryptBoundCheck_cons (e : Engine) (p : Params) (l : List (Option Code)) :
    firstError (e.encryptBoundCheck p :: l) =
      if p.bufBytes ≤ e.inLen.toNat then some .lengthOverflow else firstError l :=
  firstError_when _ _ l

theorem firstError_decryptBoundCheck_cons (e : Engine) (p : Params) (l : List (Option Code)) :
    firstError (e.decryptBoundCheck p :: l) =
      if p.bufBytes < e.inLen.toNat then some .lengthOverflow else firstError l :=
  firstError_when _ _ l

theorem firstError_wholeBlocksCheck_cons (e : Engine) (l : List (Option Code)) :
    firstError (e.wholeBlocksCheck :: l) =
      if e.inLen.toNat = 0 ∨ e.inLen.toNat % 16 ≠ 0 then some .invalidBlockLength
      else firstError l :=
  firstError_when _ _ l

/-- R230 to R233: the error of a buffer command's checks, before any padding is known. -/
def bufferError (s : State) : Instr → Option Code
  | .ebufEcb => s.ebufEcbError
  | .ebufCbc => s.ebufCbcError
  | .dbufEcb => s.dbufEcbError
  | .dbufCbc => s.dbufCbcError
  | .nop => none
  | .kexp => none
  | .kclr => none
  | .eblk => none
  | .dblk => none

/-- R230, R272. -/
theorem bufferError_ebufEcb (s : State) : bufferError s .ebufEcb =
    if s.engine.keyValid = true then
      if s.params.bufBytes ≤ s.engine.inLen.toNat then some .lengthOverflow else none
    else some .invalidKeyLength := by
  show firstError [s.engine.keyCheck, s.engine.encryptBoundCheck s.params] = _
  rw [firstError_keyCheck_cons, firstError_encryptBoundCheck_cons, firstError_nil]

/-- R231, R272. -/
theorem bufferError_ebufCbc (s : State) : bufferError s .ebufCbc =
    if s.engine.keyValid = true then
      if s.engine.ivLen = 16 then
        if s.params.bufBytes ≤ s.engine.inLen.toNat then some .lengthOverflow else none
      else some .invalidIVLength
    else some .invalidKeyLength := by
  show firstError [s.engine.keyCheck, s.engine.ivCheck, s.engine.encryptBoundCheck s.params] = _
  rw [firstError_keyCheck_cons, firstError_ivCheck_cons, firstError_encryptBoundCheck_cons,
    firstError_nil]

/-- R232, R272. -/
theorem bufferError_dbufEcb (s : State) : bufferError s .dbufEcb =
    if s.engine.keyValid = true then
      if s.params.bufBytes < s.engine.inLen.toNat then some .lengthOverflow
      else if s.engine.inLen.toNat = 0 ∨ s.engine.inLen.toNat % 16 ≠ 0 then some .invalidBlockLength
      else none
    else some .invalidKeyLength := by
  show firstError [s.engine.keyCheck, s.engine.decryptBoundCheck s.params,
    s.engine.wholeBlocksCheck] = _
  rw [firstError_keyCheck_cons, firstError_decryptBoundCheck_cons,
    firstError_wholeBlocksCheck_cons, firstError_nil]

/-- R233, R272. -/
theorem bufferError_dbufCbc (s : State) : bufferError s .dbufCbc =
    if s.engine.keyValid = true then
      if s.engine.ivLen = 16 then
        if s.params.bufBytes < s.engine.inLen.toNat then some .lengthOverflow
        else if s.engine.inLen.toNat = 0 ∨ s.engine.inLen.toNat % 16 ≠ 0 then
          some .invalidBlockLength
        else none
      else some .invalidIVLength
    else some .invalidKeyLength := by
  show firstError [s.engine.keyCheck, s.engine.ivCheck, s.engine.decryptBoundCheck s.params,
    s.engine.wholeBlocksCheck] = _
  rw [firstError_keyCheck_cons, firstError_ivCheck_cons, firstError_decryptBoundCheck_cons,
    firstError_wholeBlocksCheck_cons, firstError_nil]

/-! ### What a buffer command answers -/

theorem bufferResult_ebufEcb (s : State) :
    bufferResult s .ebufEcb = some (ecbEnc (pad s.input) s.engine.rk) := rfl

theorem bufferResult_ebufCbc (s : State) :
    bufferResult s .ebufCbc = some (cbcEnc (pad s.input) s.engine.rk s.engine.iv.toBlock) := rfl

theorem bufferResult_dbufEcb (s : State) :
    bufferResult s .dbufEcb = unpad (ecbDec s.input s.engine.rk) := rfl

theorem bufferResult_dbufCbc (s : State) :
    bufferResult s .dbufCbc = unpad (cbcDec s.input s.engine.rk s.engine.iv.toBlock) := rfl

/-- R227: how a buffer command ends, given the error of its checks and its result: with the error, with
`PaddingError` where there is no result, or with the result committed. -/
def State.endBuffer (s : State) : Option Code → Option (List Byte) → State
  | some c, _ => s.raise .buffer c
  | none, none => s.raise .buffer .paddingError
  | none, some r => s.completeOk (s.engine.commitOutput r)

theorem encryptBuffer_eq (s : State) (err : Option Code) (f : List Byte → List Byte) :
    s.encryptBuffer err f = s.endBuffer err (some (f (pad s.input))) := by
  cases err <;> rfl

theorem decryptBuffer_eq (s : State) (err : Option Code) (f : List Byte → List Byte) :
    s.decryptBuffer err f = s.endBuffer err (unpad (f s.input)) := by
  rcases s.decryptBuffer_cases err f with ⟨c, rfl, -⟩ | ⟨rfl, result, h⟩ | ⟨r, rfl, result, h⟩
  · rfl
  · rw [h, result]; rfl
  · rw [h, result]; rfl

section
variable {s : State} {i : Instr}

/-- The four buffer commands. -/
theorem isBuffer_command (h : isBuffer (.command i) = true) :
    i = .ebufEcb ∨ i = .ebufCbc ∨ i = .dbufEcb ∨ i = .dbufCbc := by
  revert h; cases i <;> decide

theorem isBuffer_of_ebuf (ebuf : i = .ebufEcb ∨ i = .ebufCbc) : isBuffer (.command i) = true := by
  obtain rfl | rfl := ebuf <;> rfl

/-- R230 to R233: a buffer command is given by the error of its checks and its result. -/
theorem exec_buffer (buffer : isBuffer (.command i) = true) (s : State) :
    exec i s = .next (s.endBuffer (bufferError s i) (bufferResult s i)) := by
  obtain rfl | rfl | rfl | rfl := isBuffer_command buffer
  · exact congrArg Host.Outcome.next (encryptBuffer_eq ..)
  · exact congrArg Host.Outcome.next (encryptBuffer_eq ..)
  · exact congrArg Host.Outcome.next (decryptBuffer_eq ..)
  · exact congrArg Host.Outcome.next (decryptBuffer_eq ..)

/-- R227, R274: a buffer command whose checks fail writes no output byte. -/
theorem exec_of_bufferError {c : Code} (buffer : isBuffer (.command i) = true)
    (error : bufferError s i = some c) : exec i s = .next (bufferFailed s c) := by
  rw [exec_buffer buffer, error]; rfl

/-- R221, R227: a buffer command without a result reports the padding and writes no output byte. -/
theorem exec_of_no_result (buffer : isBuffer (.command i) = true) (passed : bufferError s i = none)
    (result : bufferResult s i = none) : exec i s = .next (bufferFailed s .paddingError) := by
  rw [exec_buffer buffer, passed, result]; rfl

/-- R227: committing a result writes it to `OutBuf` from byte 0, and its length, and no other byte. -/
theorem bufferDone_commit (s : State) (r : List Byte) :
    BufferDone s (s.completeOk (s.engine.commitOutput r)) r := by
  refine ⟨rfl, fun j below => ?_, fun j beyond => ?_⟩
  · simp [State.outByte_commit, below]
  · simp [State.outByte_commit, beyond]

/-- R227: a buffer command whose checks pass commits its result. -/
theorem exec_of_bufferResult {r : List Byte} (buffer : isBuffer (.command i) = true)
    (passed : bufferError s i = none) (result : bufferResult s i = some r) :
    ∃ t, exec i s = .next t ∧ BufferDone s t r := by
  rw [exec_buffer buffer, passed, result]
  exact ⟨_, rfl, bufferDone_commit s r⟩

end

/-- Settles O52, by what each entry of the input is. -/
theorem theInputIsTheWindowBelowInLen : Obligations.TheInputIsTheWindowBelowInLen :=
  fun s => ⟨s.input_length, fun i below => (s.input_getElem? i).trans (if_pos below)⟩

/-- Settles O13: the checks in their order, then the result. -/
theorem ebufEcbEncryptsThePaddedBuffer : Obligations.EbufEcbEncryptsThePaddedBuffer := by
  refine ⟨decode_encode .ebufEcb, fun s => ⟨fun key => ?_, fun key long => ?_, fun key fits => ?_⟩⟩
  · exact exec_of_bufferError rfl (by simp [bufferError_ebufEcb, key])
  · exact exec_of_bufferError rfl (by simp [bufferError_ebufEcb, key, long])
  · exact exec_of_bufferResult rfl (by simp [bufferError_ebufEcb, key, fits]) rfl

/-- Settles O14: the checks in their order, then the result. -/
theorem ebufCbcEncryptsThePaddedBuffer : Obligations.EbufCbcEncryptsThePaddedBuffer := by
  refine ⟨decode_encode .ebufCbc, fun s =>
    ⟨fun key => ?_, fun key iv => ?_, fun key iv long => ?_, fun key iv fits => ?_⟩⟩
  · exact exec_of_bufferError rfl (by simp [bufferError_ebufCbc, key])
  · exact exec_of_bufferError rfl (by rw [bufferError_ebufCbc, if_pos key, if_neg iv])
  · exact exec_of_bufferError rfl (by simp [bufferError_ebufCbc, key, iv, long])
  · exact exec_of_bufferResult rfl (by simp [bufferError_ebufCbc, key, iv, fits]) rfl

/-- Settles O15: the checks in their order, then the padding, then the result. -/
theorem dbufEcbDecryptsAndStripsThePadding : Obligations.DbufEcbDecryptsAndStripsThePadding := by
  refine ⟨decode_encode .dbufEcb, fun s =>
    ⟨fun key => ?_, fun key long => ?_, fun key fits ragged => ?_, fun key fits nonempty whole => ?_⟩⟩
  · exact exec_of_bufferError rfl (by simp [bufferError_dbufEcb, key])
  · exact exec_of_bufferError rfl (by simp [bufferError_dbufEcb, key, long])
  · exact exec_of_bufferError rfl
      (by rw [bufferError_dbufEcb, if_pos key, if_neg (Nat.not_lt.2 fits), if_pos ragged])
  · have passed : bufferError s .dbufEcb = none :=
      (dbufEcbError_eq_none s).2 ⟨key, fits, nonempty, whole⟩
    exact ⟨exec_of_no_result rfl passed, fun _ => exec_of_bufferResult rfl passed⟩

/-- Settles O16: the checks in their order, then the padding, then the result. -/
theorem dbufCbcDecryptsAndStripsThePadding : Obligations.DbufCbcDecryptsAndStripsThePadding := by
  refine ⟨decode_encode .dbufCbc, fun s =>
    ⟨fun key => ?_, fun key iv => ?_, fun key iv long => ?_, fun key iv fits ragged => ?_,
      fun key iv fits nonempty whole => ?_⟩⟩
  · exact exec_of_bufferError rfl (by simp [bufferError_dbufCbc, key])
  · exact exec_of_bufferError rfl (by rw [bufferError_dbufCbc, if_pos key, if_neg iv])
  · exact exec_of_bufferError rfl (by simp [bufferError_dbufCbc, key, iv, long])
  · exact exec_of_bufferError rfl
      (by rw [bufferError_dbufCbc, if_pos key, if_pos iv, if_neg (Nat.not_lt.2 fits), if_pos ragged])
  · have passed : bufferError s .dbufCbc = none :=
      (dbufCbcError_eq_none s).2 ⟨key, iv, fits, nonempty, whole⟩
    exact ⟨exec_of_no_result rfl passed, fun _ => exec_of_bufferResult rfl passed⟩

end Sys2Proof.Machine
end

section
/-! What holds of every buffer command: its result fits the window, so `OUT_LEN` holds its length (R228), and it ends
with the whole result or with an error and no output byte (R227). -/

namespace Sys2Proof.Machine

variable {s t : State} {i : Instr}

/-! ### The length of a result -/

/-- R228: an encrypting buffer command pads its input to whole blocks, which fit the window. -/
theorem bufferResult_length_ebuf {r : List Byte} (hp : s.params.wf = true)
    (ebuf : i = .ebufEcb ∨ i = .ebufCbc) (passed : bufferError s i = none)
    (result : bufferResult s i = some r) :
    r.length = (pad s.input).length ∧ r.length ≤ s.params.bufBytes := by
  obtain rfl | rfl := ebuf
  · obtain ⟨-, bound⟩ := (ebufEcbError_eq_none s).1 passed
    obtain ⟨whole, fits⟩ := pad_input_length_le hp bound
    cases result
    rw [ecbEnc_length _ whole]
    exact ⟨rfl, fits⟩
  · obtain ⟨-, -, bound⟩ := (ebufCbcError_eq_none s).1 passed
    obtain ⟨whole, fits⟩ := pad_input_length_le hp bound
    cases result
    rw [cbcEnc_length _ _ whole]
    exact ⟨rfl, fits⟩

/-- R226, R228: a decrypting buffer command transforms whole blocks, at least one, that fit the window. -/
theorem input_length_of_dbuf (dbuf : i = .dbufEcb ∨ i = .dbufCbc) (passed : bufferError s i = none) :
    s.input.length ≤ s.params.bufBytes ∧ s.input.length % 16 = 0 ∧ 16 ≤ s.input.length := by
  have len : s.engine.inLen.toNat ≤ s.params.bufBytes ∧ s.engine.inLen.toNat ≠ 0 ∧
      s.engine.inLen.toNat % 16 = 0 := by
    obtain rfl | rfl := dbuf
    · exact ((dbufEcbError_eq_none s).1 passed).2
    · exact ((dbufCbcError_eq_none s).1 passed).2.2
  rw [s.input_length]
  omega

/-- R228: a decrypting buffer command takes off as many bytes as the last byte of the decrypted input `d` says, 1
to 16. -/
theorem unpad_length_of_dbuf {d r : List Byte} (dbuf : i = .dbufEcb ∨ i = .dbufCbc)
    (passed : bufferError s i = none) (kept : s.input.length % 16 = 0 → d.length = s.input.length)
    (result : unpad d = some r) :
    ∃ p, r.length + p = s.engine.inLen.toNat ∧ s.engine.inLen.toNat % 16 = 0 ∧ 1 ≤ p ∧ p ≤ 16 ∧
      d.getLast? = some (BitVec.ofNat 8 p) := by
  obtain ⟨-, whole, nonempty⟩ := input_length_of_dbuf dbuf passed
  have kept := kept whole
  obtain rfl := eq_pad_of_unpad (kept ▸ whole) (kept ▸ nonempty) result
  obtain ⟨positive, small⟩ := padLength_mem r.length
  have padding := length_add_padLength r
  rw [kept, s.input_length] at padding
  exact ⟨_, padding, s.input_length ▸ whole, positive, small, pad_getLast? r⟩

/-- R227: the result of a buffer command fits the window. -/
theorem bufferResult_length_le {r : List Byte} (hp : s.params.wf = true)
    (buffer : isBuffer (.command i) = true) (passed : bufferError s i = none)
    (result : bufferResult s i = some r) : r.length ≤ s.params.bufBytes := by
  obtain rfl | rfl | rfl | rfl := isBuffer_command buffer
  · exact (bufferResult_length_ebuf hp (.inl rfl) passed result).2
  · exact (bufferResult_length_ebuf hp (.inr rfl) passed result).2
  · obtain ⟨fits, whole, -⟩ := input_length_of_dbuf (.inl rfl) passed
    exact (unpad_length_le result).trans (by rwa [ecbDec_length _ whole])
  · obtain ⟨fits, whole, -⟩ := input_length_of_dbuf (.inr rfl) passed
    exact (unpad_length_le result).trans (by rwa [cbcDec_length _ _ whole])

/-- R227: after a buffer command that committed its result, `OUT_LEN` holds the length of it. -/
theorem BufferDone.outLen_toNat {r : List Byte} (done : BufferDone s t r) (hp : s.params.wf = true)
    (buffer : isBuffer (.command i) = true) (passed : bufferError s i = none)
    (result : bufferResult s i = some r) : t.engine.outLen.toNat = r.length := by
  rw [done.1]
  exact commitOutput_outLen_toNat s.engine
    ((bufferResult_length_le hp buffer passed result).trans (Params.wf_bufBytes hp).2.2)

theorem BufferDone.errCode {r : List Byte} (done : BufferDone s t r) : t.engine.errCode = .ok := by
  rw [done.1]

/-! ### The two ways to end -/

/-- R272: a failing check does not report `OK`. -/
theorem bufferError_ne_ok (buffer : isBuffer (.command i) = true) (s : State) :
    bufferError s i ≠ some .ok := by
  obtain rfl | rfl | rfl | rfl := isBuffer_command buffer
  · rw [bufferError_ebufEcb]
    split_ifs <;> decide
  · rw [bufferError_ebufCbc]
    split_ifs <;> decide
  · rw [bufferError_dbufEcb]
    split_ifs <;> decide
  · rw [bufferError_dbufCbc]
    split_ifs <;> decide

/-- R106: a `*_BADMODE` value does not report `OK`. -/
theorem badModeError_ne_ok (e : Engine) : e.badModeError ≠ .ok := by
  rw [Engine.badModeError_eq]
  split <;> decide

/-- R227: a buffer command commits its result, or reports an error and writes no output byte. -/
theorem exec_buffer_cases (buffer : isBuffer (.command i) = true) (performed : exec i s = .next t) :
    (∃ r, bufferError s i = none ∧ bufferResult s i = some r ∧ BufferDone s t r) ∨
    (∃ c, c ≠ .ok ∧ t = bufferFailed s c) := by
  rw [exec_buffer buffer] at performed
  cases performed
  cases error : bufferError s i with
  | some c => exact .inr ⟨c, fun ok => bufferError_ne_ok buffer s (ok ▸ error), rfl⟩
  | none =>
    cases result : bufferResult s i with
    | none => exact .inr ⟨.paddingError, by decide, rfl⟩
    | some r => exact .inl ⟨r, rfl, rfl, bufferDone_commit s r⟩

/-- Settles O22: the two ways a buffer command ends; a `*_BADMODE` value reports the key or the mode. -/
theorem bufferCommandsCommitAllOrNothing : Obligations.BufferCommandsCommitAllOrNothing := by
  refine ⟨fun s t i hp buffer performed => ?_, fun s t d badMode performed => ?_⟩
  · rcases exec_buffer_cases buffer performed with ⟨r, passed, result, done⟩ | ⟨c, error, rfl⟩
    · exact .inl ⟨done.errCode, r, result, done.outLen_toNat hp buffer passed result, done⟩
    · exact .inr ⟨error, rfl, fun _ => rfl⟩
  · have failed : t = bufferFailed s s.engine.badModeError := by
      obtain rfl | rfl := badMode <;> cases performed <;> rfl
    subst failed
    exact ⟨badModeError_ne_ok s.engine, rfl, fun _ => rfl⟩

/-- R227: a buffer command that completes OK committed its result. -/
theorem bufferDone_of_ok (buffer : isBuffer (.command i) = true) (performed : exec i s = .next t)
    (ok : t.engine.errCode = .ok) :
    ∃ r, bufferError s i = none ∧ bufferResult s i = some r ∧ BufferDone s t r := by
  rcases exec_buffer_cases buffer performed with done | ⟨c, error, rfl⟩
  · exact done
  · exact absurd ok error

/-- Settles O23: the length of the committed result, which is the padded input transformed or the transformed input
without its padding. -/
theorem outputLengthsOfTheBufferCommands : Obligations.OutputLengthsOfTheBufferCommands := by
  intro s t i hp performed ok
  refine ⟨fun ebuf => ?_, fun dbuf => ?_, fun dbuf => ?_⟩
  · have buffer := isBuffer_of_ebuf ebuf
    obtain ⟨r, passed, result, done⟩ := bufferDone_of_ok buffer performed ok
    obtain ⟨length, fits⟩ := bufferResult_length_ebuf hp ebuf passed result
    have outLen := done.outLen_toNat hp buffer passed result
    have blocks := pad_length s.input
    have padding := length_add_padLength s.input
    rw [s.input_length] at blocks padding
    exact ⟨by omega, by omega, by omega, by omega⟩
  · subst dbuf
    obtain ⟨r, passed, result, done⟩ := bufferDone_of_ok rfl performed ok
    rw [done.outLen_toNat hp rfl passed result]
    exact unpad_length_of_dbuf (.inl rfl) passed (ecbDec_length s.engine.rk) result
  · subst dbuf
    obtain ⟨r, passed, result, done⟩ := bufferDone_of_ok rfl performed ok
    rw [done.outLen_toNat hp rfl passed result]
    exact unpad_length_of_dbuf (.inr rfl) passed (cbcDec_length s.engine.rk s.engine.ivBlock) result

end Sys2Proof.Machine
end

section
/-! The round trip through the machine (R234), and that a result depends on the operands only (R235). -/

namespace Sys2Proof.Machine

variable {s t u : State} {i : Instr}

/-- R225: a state with the same declared length and the same input bytes has the same input. -/
theorem input_congr {s s' : State} (len : s.engine.inLen = s'.engine.inLen)
    (bytes : ∀ a < s.engine.inLen.toNat, s.inByte a = s'.inByte a) : s.input = s'.input := by
  refine List.ext_getElem? fun a => ?_
  rw [s.input_getElem?, s'.input_getElem?, ← len]
  split
  · rename_i below
    rw [bytes a below]
  · rfl

/-- R234: `u` holds the output of `t` as its input, under the parameters and the schedule of `s`. -/
def Copied (s t u : State) : Prop :=
  u.params = s.params ∧ u.engine.keyValid = true ∧ u.engine.rk = s.engine.rk ∧
    u.engine.inLen = t.engine.outLen ∧ ∀ j < t.engine.outLen.toNat, u.inByte j = t.outByte j

/-- R234: the output of an encrypting buffer command, copied into the input window, is an input whose length a
decrypting one accepts. -/
theorem BufferDone.input_of_copied {c : List Byte} (done : BufferDone s t c) (hp : s.params.wf = true)
    (ebuf : i = .ebufEcb ∨ i = .ebufCbc) (passed : bufferError s i = none)
    (result : bufferResult s i = some c) (copied : Copied s t u) :
    u.input = c ∧ u.engine.inLen.toNat ≤ u.params.bufBytes ∧ u.engine.inLen.toNat ≠ 0 ∧
      u.engine.inLen.toNat % 16 = 0 := by
  obtain ⟨params, -, -, len, bytes⟩ := copied
  have outLen := done.outLen_toNat hp (isBuffer_of_ebuf ebuf) passed result
  obtain ⟨padded, fits⟩ := bufferResult_length_ebuf hp ebuf passed result
  have blocks := pad_length s.input
  rw [len, outLen, params]
  refine ⟨List.ext_getElem? fun j => ?_, fits, by omega, by omega⟩
  rw [u.input_getElem?, len, outLen]
  split
  · rename_i below
    rw [bytes j (by rwa [outLen]), done.2.1 j below]
  · rename_i beyond
    exact (List.getElem?_eq_none (Nat.not_lt.1 beyond)).symm

/-- `v` completed OK with the input of `s` as its output. -/
def Restored (s v : State) : Prop :=
  v.engine.errCode = .ok ∧ v.engine.outLen = s.engine.inLen ∧
    ∀ j < s.engine.inLen.toNat, v.outByte j = s.inByte j

/-- R234: a buffer command whose result is the input of `s` restores it. -/
theorem exec_restores (buffer : isBuffer (.command i) = true) (passed : bufferError u i = none)
    (result : bufferResult u i = some s.input) : ∃ v, exec i u = .next v ∧ Restored s v := by
  obtain ⟨v, performed, done⟩ := exec_of_bufferResult buffer passed result
  refine ⟨v, performed, done.errCode, ?_, fun j below => ?_⟩
  · rw [done.1]
    simp
  · have byte := done.2.1 j (by rwa [s.input_length])
    rw [s.input_getElem?, if_pos below] at byte
    exact Option.some.inj byte

/-- Settles O57: the output copied is the ciphertext of the padded input, which decrypts to the padded input, which
unpads to the input. -/
theorem buffersRoundTripInBothModes : Obligations.BuffersRoundTripInBothModes := by
  intro s hp key fits copied restored
  obtain ⟨whole, -⟩ := pad_input_length_le hp fits
  refine ⟨?_, fun iv => ?_⟩
  · have passed := (ebufEcbError_eq_none s).2 ⟨key, fits⟩
    obtain ⟨t, performed, done⟩ := exec_of_bufferResult (i := .ebufEcb) rfl passed rfl
    refine ⟨t, performed, done.errCode, fun u copy => ?_⟩
    obtain ⟨input, len⟩ := done.input_of_copied hp (.inl rfl) passed rfl copy
    obtain ⟨-, key, rk, -⟩ := copy
    exact exec_restores (i := .dbufEcb) rfl ((dbufEcbError_eq_none u).2 ⟨key, len⟩)
      (by rw [bufferResult_dbufEcb, input, rk, ecbDec_ecbEnc _ whole, unpad_pad])
  · have passed := (ebufCbcError_eq_none s).2 ⟨key, iv, fits⟩
    obtain ⟨t, performed, done⟩ := exec_of_bufferResult (i := .ebufCbc) rfl passed rfl
    refine ⟨t, performed, done.errCode, fun u copy ivLen ivs => ?_⟩
    obtain ⟨input, len⟩ := done.input_of_copied hp (.inr rfl) passed rfl copy
    obtain ⟨-, key, rk, -⟩ := copy
    exact exec_restores (i := .dbufCbc) rfl ((dbufCbcError_eq_none u).2 ⟨key, ivLen, len⟩)
      (by rw [bufferResult_dbufCbc, input, rk, ivs, cbcDec_cbcEnc _ _ whole, unpad_pad])

theorem outByte_endBuffer (s : State) (r : List Byte) (a : Nat) :
    (s.endBuffer none (some r)).outByte a = (r[a]?).getD (s.outByte a) := s.outByte_commit r a

/-- R227: what a host reads of how a buffer command ended depends on the error and the result only. -/
theorem endBuffer_observed (s s' : State) (err : Option Code) (result : Option (List Byte)) :
    let t := s.endBuffer err result
    let t' := s'.endBuffer err result
    t.engine.errCode = t'.engine.errCode ∧ t.engine.outLen = t'.engine.outLen ∧
      ∀ a < t.engine.outLen.toNat, t.outByte a = t'.outByte a := by
  cases err with
  | some c => exact ⟨rfl, rfl, fun a below => absurd below (Nat.not_lt_zero a)⟩
  | none =>
    cases result with
    | none => exact ⟨rfl, rfl, fun a below => absurd below (Nat.not_lt_zero a)⟩
    | some r =>
      refine ⟨rfl, rfl, fun a below => ?_⟩
      have inside : a < r.length :=
        below.trans_le ((BitVec.toNat_ofNat ..).trans_le (Nat.mod_le r.length (2 ^ 32)))
      simp only [outByte_endBuffer, List.getElem?_eq_getElem inside, Option.getD_some]

/-- Settles O58: the operands give the error of the checks and the result, and these two what is observed. -/
theorem bufferResultsDependOnlyOnTheirOperands : Obligations.BufferResultsDependOnlyOnTheirOperands := by
  intro i s s' t t' buffer params key rk len bytes iv performed performed'
  have input := input_congr len bytes
  have same : bufferError s i = bufferError s' i ∧ bufferResult s i = bufferResult s' i := by
    obtain rfl | rfl | rfl | rfl := isBuffer_command buffer
    · simp only [bufferError_ebufEcb, bufferResult_ebufEcb, params, key, rk, len, input, and_self]
    · obtain ⟨ivLen, ivs⟩ := iv (.inl rfl)
      simp only [bufferError_ebufCbc, bufferResult_ebufCbc, params, key, rk, len, input, ivLen,
        ivs, and_self]
    · simp only [bufferError_dbufEcb, bufferResult_dbufEcb, params, key, rk, len, input, and_self]
    · obtain ⟨ivLen, ivs⟩ := iv (.inr rfl)
      simp only [bufferError_dbufCbc, bufferResult_dbufCbc, params, key, rk, len, input, ivLen,
        ivs, and_self]
  rw [exec_buffer buffer] at performed performed'
  cases performed
  cases performed'
  rw [same.1, same.2]
  exact endBuffer_observed ..

end Sys2Proof.Machine
end

section
/-! The system command `NOP` and the words next to its own (R260, R105). -/

namespace Sys2Proof.Machine

/-- R105, R260: a word with `OP = 0` and any other bit set is not `NOP`: its `MODE` or its `RSV` is nonzero. -/
theorem decode_illegal_of_op_zero {w : Word} (op : w.toNat % 16 = 0) (nonzero : w ≠ 0#32) :
    decode w = .illegal := by
  have value : w.toNat ≠ 0 := fun zero => nonzero (BitVec.eq_of_toNat_eq zero)
  have fields : w.toNat / 256 ≠ 0 ∨ w.toNat / 16 % 16 ≠ 0 := by omega
  rw [decode_eq_iff]
  rcases fields with rsv | mode
  · exact .inl rsv
  · exact .inr (.inr ⟨op.trans_le (Nat.zero_le 4), mode⟩)

/-- Settles O8: `NOP` has one outcome and its word is the command's; the other words by their `MODE` or `RSV`; the
value of `CMD` at reset is computed. -/
theorem nopOnlyClearsTheStatus : Obligations.NopOnlyClearsTheStatus :=
  ⟨fun _ => rfl, decode_encode .nop, fun _ => decode_illegal_of_op_zero, fun _ => rfl⟩

end Sys2Proof.Machine
end

section
/-! What a command that fails changes (R274), and the status each command ends with (R270 to R273). -/

namespace Sys2Proof.Machine

variable {s t : State} {d : Decoded} {i : Instr}

/-! ### What a failing command changes -/

/-- Settles O19: of the ways a command can end, those that do not end `OK` raise the error of their row. -/
theorem aFailingCommandChangesExactlyItsRow : Obligations.AFailingCommandChangesExactlyItsRow := by
  intro d s t performed failed
  cases perform_inv performed with
  | nop | kclr | kexp _ | eblk _ | dblk _ | ebufEcb _ | ebufCbc _ | dbufEcb _ _ | dbufCbc _ _ =>
    exact absurd rfl failed
  | _ => rfl

/-! ### The status of each command -/

/-- R270: a command that gives a next state ends with the code it wrote to `ERRCODE`. -/
theorem statusAfter_of_perform (performed : perform d s = .next t) :
    statusAfter d s = some t.engine.errCode := by
  rw [statusAfter, performed]

theorem statusAfter_eq_some_iff {c : Code} :
    statusAfter d s = some c ↔ ∃ t, perform d s = .next t ∧ t.engine.errCode = c := by
  obtain ⟨t, performed, -⟩ := perform_effect d s
  simp [statusAfter_of_perform performed, performed]

theorem statusAfter_of_exec (performed : exec i s = .next t) :
    statusAfter (.command i) s = some t.engine.errCode :=
  statusAfter_of_perform (d := .command i) performed

/-- R140, R272. -/
theorem statusAfter_kexp (s : State) : statusAfter (.command .kexp) s =
    some (if s.engine.keyLen ≠ 16 then .invalidKeyLength else .ok) := by
  rcases execKexp_cases s with ⟨wrong, performed⟩ | ⟨right, performed⟩
  · rw [statusAfter_of_exec performed, if_pos wrong]; rfl
  · rw [statusAfter_of_exec performed, if_neg (not_not.2 right)]; rfl

/-- R190, R191: a block command ends with the error of its checks, if any. -/
theorem BlockOutcome.statusAfter_eq {done : State} (outcome : BlockOutcome s (exec i s) done)
    (ok : done.engine.errCode = .ok) :
    statusAfter (.command i) s = some (s.engine.blockError.getD .ok) := by
  rcases outcome with ⟨c, error, performed⟩ | ⟨passed, performed⟩
  · rw [statusAfter_of_exec performed, error]; rfl
  · rw [statusAfter_of_exec performed, passed, ok]; rfl

/-- R190, R191, R272. -/
theorem statusAfter_block (block : i = .eblk ∨ i = .dblk) (s : State) :
    statusAfter (.command i) s = some
      (if s.engine.keyValid = false then .invalidKeyLength
       else if s.engine.blkLen ≠ 16 then .invalidBlockLength else .ok) := by
  have checked : statusAfter (.command i) s = some (s.engine.blockError.getD .ok) := by
    obtain rfl | rfl := block
    · exact BlockOutcome.statusAfter_eq (execEblk_cases s) rfl
    · exact BlockOutcome.statusAfter_eq (execDblk_cases s) rfl
  rw [checked]
  rcases blockError_cases s.engine with ⟨key, error⟩ | ⟨key, len, error⟩ | ⟨key, len, error⟩
  · rw [error, if_pos key]; rfl
  · rw [error, if_neg (by simp [key]), if_pos len]; rfl
  · rw [error, if_neg (by simp [key]), if_neg (not_not.2 len)]; rfl

/-- R106, R272. -/
theorem statusAfter_badMode (badMode : d = .ebufBadMode ∨ d = .dbufBadMode) (s : State) :
    statusAfter d s =
      some (if s.engine.keyValid = false then .invalidKeyLength else .unsupportedMode) := by
  have raised : statusAfter d s = some s.engine.badModeError := by
    obtain rfl | rfl := badMode <;> rfl
  rw [raised, Engine.badModeError_eq]
  cases s.engine.keyValid <;> rfl

/-- R272: a buffer command ends with the error of its checks, else by whether it has a result. -/
theorem statusAfter_buffer (buffer : isBuffer (.command i) = true) (s : State) :
    statusAfter (.command i) s = some
      ((bufferError s i).getD (if bufferResult s i = none then .paddingError else .ok)) := by
  rw [statusAfter_of_exec (exec_buffer buffer s)]
  cases bufferError s i with
  | some c => rfl
  | none => cases bufferResult s i <;> rfl

/-- A code read off a chain of checks, condition by condition. -/
theorem getD_ite {α : Type} (p : Prop) [Decidable p] (a b : Option α) (c : α) :
    (if p then a else b).getD c = if p then a.getD c else b.getD c :=
  apply_ite (Option.getD · c) p a b

/-- R230, R272. -/
theorem statusAfter_ebufEcb (s : State) : statusAfter (.command .ebufEcb) s = some
    (if s.engine.keyValid = false then .invalidKeyLength
     else if s.params.bufBytes ≤ s.engine.inLen.toNat then .lengthOverflow else .ok) := by
  rw [statusAfter_buffer rfl, bufferError_ebufEcb, bufferResult_ebufEcb]
  cases s.engine.keyValid <;> simp [getD_ite]

/-- R231, R272. -/
theorem statusAfter_ebufCbc (s : State) : statusAfter (.command .ebufCbc) s = some
    (if s.engine.keyValid = false then .invalidKeyLength
     else if s.engine.ivLen ≠ 16 then .invalidIVLength
     else if s.params.bufBytes ≤ s.engine.inLen.toNat then .lengthOverflow else .ok) := by
  rw [statusAfter_buffer rfl, bufferError_ebufCbc, bufferResult_ebufCbc]
  cases s.engine.keyValid <;> simp [getD_ite]

/-- R232, R272. -/
theorem statusAfter_dbufEcb (s : State) : statusAfter (.command .dbufEcb) s = some
    (if s.engine.keyValid = false then .invalidKeyLength
     else if s.params.bufBytes < s.engine.inLen.toNat then .lengthOverflow
     else if s.engine.inLen.toNat = 0 ∨ s.engine.inLen.toNat % 16 ≠ 0 then .invalidBlockLength
     else if unpad (ecbDec s.input s.engine.rk) = none then .paddingError else .ok) := by
  rw [statusAfter_buffer rfl, bufferError_dbufEcb, bufferResult_dbufEcb]
  cases s.engine.keyValid <;> simp [getD_ite]

/-- R233, R272. -/
theorem statusAfter_dbufCbc (s : State) : statusAfter (.command .dbufCbc) s = some
    (if s.engine.keyValid = false then .invalidKeyLength
     else if s.engine.ivLen ≠ 16 then .invalidIVLength
     else if s.params.bufBytes < s.engine.inLen.toNat then .lengthOverflow
     else if s.engine.inLen.toNat = 0 ∨ s.engine.inLen.toNat % 16 ≠ 0 then .invalidBlockLength
     else if unpad (cbcDec s.input s.engine.rk s.engine.iv.toBlock) = none then .paddingError
     else .ok) := by
  rw [statusAfter_buffer rfl, bufferError_dbufCbc, bufferResult_dbufCbc]
  cases s.engine.keyValid <;> simp [getD_ite]

/-- Settles O20: one lemma per command; those without a condition have one outcome. -/
theorem statusFollowsThePrecedence : Obligations.StatusFollowsThePrecedence :=
  fun s => ⟨rfl, rfl, rfl, statusAfter_kexp s, fun _ block => statusAfter_block block s,
    fun _ badMode => statusAfter_badMode badMode s, statusAfter_ebufEcb s, statusAfter_ebufCbc s,
    statusAfter_dbufEcb s, statusAfter_dbufCbc s⟩

/-! ### Without a schedule -/

/-- R273: the key is the first condition of every block and buffer command. -/
theorem statusAfter_of_no_key (key : s.engine.keyValid = false) (nop : d ≠ .command .nop)
    (kexp : d ≠ .command .kexp) (kclr : d ≠ .command .kclr) (illegal : d ≠ .illegal) :
    statusAfter d s = some .invalidKeyLength := by
  cases d with
  | ebufBadMode => rw [statusAfter_badMode (.inl rfl), if_pos key]
  | dbufBadMode => rw [statusAfter_badMode (.inr rfl), if_pos key]
  | illegal => exact absurd rfl illegal
  | command i =>
    cases i with
    | nop => exact absurd rfl nop
    | kexp => exact absurd rfl kexp
    | kclr => exact absurd rfl kclr
    | eblk => rw [statusAfter_block (.inl rfl), if_pos key]
    | dblk => rw [statusAfter_block (.inr rfl), if_pos key]
    | ebufEcb => rw [statusAfter_ebufEcb, if_pos key]
    | ebufCbc => rw [statusAfter_ebufCbc, if_pos key]
    | dbufEcb => rw [statusAfter_dbufEcb, if_pos key]
    | dbufCbc => rw [statusAfter_dbufCbc, if_pos key]

/-- Settles O21: the key is checked first; `KCLR` has one outcome, and a failed `KEXP` changes its row of R274. -/
theorem withoutAScheduleBlockAndBufferCommandsFail :
    Obligations.WithoutAScheduleBlockAndBufferCommandsFail := by
  refine ⟨fun s d key nop kexp kclr illegal => ?_, fun _ => rfl, fun s t performed => ?_,
    fun s t performed failed => ?_⟩
  · exact statusAfter_eq_some_iff.1 (statusAfter_of_no_key key nop kexp kclr illegal)
  · cases performed
    rfl
  · have row := aFailingCommandChangesExactlyItsRow (.command .kexp) s t performed failed
    exact congrArg (fun u : State => u.engine.keyValid) row

/-! ### The status register -/

/-- R271: codes 8 to 15 are the number of no code. -/
theorem Code.number_lt (c : Code) : c.number.toNat < 8 := by
  cases c <;> decide

/-- Settles O24: the numbers are computed; the sum of the fields of `STATUS` fits its word. -/
theorem statusWordLayoutAndCodeNumbers : Obligations.StatusWordLayoutAndCodeNumbers := by
  refine ⟨⟨rfl, rfl, rfl, rfl, rfl, rfl, rfl, rfl⟩, fun e => ⟨e.errCode.number_lt, ?_⟩⟩
  have below := e.errCode.number_lt
  rw [e.statusWord_eq_sum, BitVec.toNat_ofNat, Nat.mod_eq_of_lt]
  split_ifs <;> omega

end Sys2Proof.Machine
end

section
/-! The platform's reset (R300, R302), and the run of host steps from an accepted command to the engine's step that
performs it (R313). -/

namespace Sys2Proof.Machine

variable {s t : State} {k : Nat}

/-! ### Reset -/

/-- R30, R46: every round key of the schedule at reset is sixteen zero bytes. -/
theorem Schedule.zero_keys_toBytes :
    ∀ key ∈ Schedule.zero.keys, key.toBytes = List.replicate 16 0x00 := by
  intro key mem
  have zero : key = Schedule.zero.rk0 := List.eq_of_mem_replicate (n := 11) mem
  rw [zero]
  rfl

/-- Settles O38: a reset is never refused, and each field is its reset value. -/
theorem resetGivesTheResetStateWhateverWasInProgress :
    Obligations.ResetGivesTheResetStateWhateverWasInProgress :=
  fun s => ⟨s.platformReset.advance, rfl, rfl, rfl, rfl, rfl, rfl, rfl, rfl, rfl, rfl, rfl, rfl, rfl,
    rfl, Schedule.zero_keys_toBytes, fun _ => rfl, fun _ => rfl,
    s.platformReset.advance.hostRead_offset .id, fun _ => rfl⟩

/-! ### Runs -/

/-- A run of one step more that answers a next state begins with a step that does. -/
theorem runSteps_succ_next (h : runSteps (k + 1) s = .next t) :
    ∃ u, step s = .next u ∧ runSteps k u = .next t := by
  cases first : step s with
  | next u => exact ⟨u, rfl, (runSteps_succ first).symm.trans h⟩
  | fault r => cases r
  | refused r => simp [runSteps, first] at h

/-- A run of one step is the step. -/
theorem runSteps_one (s : State) : runSteps 1 s = step s := by
  rw [runSteps]
  cases step s <;> rfl

/-- A run of one step more is the run and then the step. -/
theorem runSteps_succ_last (h : runSteps k s = .next t) : runSteps (k + 1) s = step t := by
  induction k generalizing s with
  | zero =>
    cases h
    exact runSteps_one _
  | succ k ih =>
    obtain ⟨u, first, rest⟩ := runSteps_succ_next h
    rw [runSteps_succ first, ih rest]

/-- R64: with a host whose accesses all have a meaning, a run of any length is never refused. -/
theorem runSteps_of_hostAccessesWf (wf : s.hostAccessesWf) : ∃ t, runSteps k s = .next t := by
  induction k generalizing s with
  | zero => exact ⟨s, rfl⟩
  | succ k ih =>
    obtain ⟨-, -, stays⟩ := aWellFormedHostNeverStopsTheMachine s
    obtain ⟨-, u, first, wf'⟩ := stays wf
    obtain ⟨t, rest⟩ := ih wf'
    exact ⟨t, (runSteps_succ first).trans rest⟩

/-! ### From the accepted command to its step -/

/-- The operation the host performs next stands in its program. -/
theorem State.noReset.ne_reset (h : s.noReset) {op : HostOp} (next : s.nextOp = some op) :
    op ≠ .reset :=
  fun reset => h (reset ▸ List.mem_of_getElem? next)

/-- R66, R67, R79: a host step while a command is in progress leaves the engine alone and counts the delay down. -/
theorem step_waiting (busy : s.engine.busy = true) (noReset : s.noReset) (owed : s.delay = k + 1)
    (h : step s = .next t) :
    t.engine = s.engine ∧ t.delay = k ∧ t.params = s.params ∧ t.resets = s.resets := by
  rcases step_next h with ⟨turn, -⟩ | ⟨-, op, next, performed⟩ | ⟨-, -, rfl⟩
  · have due := (s.engineTurn_iff.1 turn).2
    omega
  · obtain ⟨engine, delay, resets, params⟩ := noHostAccessReachesACommandInProgress op s.tick t busy
      (noReset.ne_reset next) performed
    exact ⟨engine, by rw [delay, State.tick_delay, owed, Nat.add_sub_cancel], params, resets⟩
  · exact ⟨rfl, by rw [State.tick_delay, owed, Nat.add_sub_cancel], rfl, rfl⟩

/-- R313: the host steps owed to a command in progress leave the engine alone, and none is owed after them. -/
theorem runSteps_waiting (busy : s.engine.busy = true) (noReset : s.noReset) (owed : s.delay = k)
    (h : runSteps k s = .next t) :
    t.engine = s.engine ∧ t.delay = 0 ∧ t.params = s.params ∧ t.resets = s.resets := by
  induction k generalizing s with
  | zero =>
    cases h
    exact ⟨rfl, owed, rfl, rfl⟩
  | succ k ih =>
    obtain ⟨u, first, rest⟩ := runSteps_succ_next h
    obtain ⟨engine, delay, params, resets⟩ := step_waiting busy noReset owed first
    have noReset' : u.noReset := by rwa [State.noReset, (step_params_prog first).2]
    simpa only [engine, params, resets] using ih (engine ▸ busy) noReset' delay rest

/-- Settles O39: the host steps owed leave the engine alone, and the step after them is the engine's. -/
theorem everyAcceptedCommandIsPerformed : Obligations.EveryAcceptedCommandIsPerformed := by
  refine ⟨fun s t busy noReset run => ?_, fun _ _ wf _ => runSteps_of_hostAccessesWf wf⟩
  obtain ⟨engine, due, params, resets⟩ := runSteps_waiting busy noReset rfl run
  obtain ⟨u, performed, effect⟩ := perform_effect (decode s.engine.cmd) t
  have last : step t = .next u := by
    rw [step_of_decode (engine ▸ busy) due rfl, engine, performed]
  exact ⟨engine, due, params, resets, u, performed, (runSteps_succ_last run).trans last, effect.busy⟩

end Sys2Proof.Machine
end
